-- ==== Sys2Proof/Word.lean ====
section
/-! DEFINITION. The words of the block and their widths (00_scope.md R9; 10_state.md R19, R33). Every
quantity of the spec is unsigned (R10, R11). -/

namespace Sys2Proof

/-- A carrier byte or a payload byte (R8 `BIT_DEPTH` = 8). -/
abbrev Byte := BitVec 8

/-- The width of WIDTH and HEIGHT: `DIM_BITS` = 32 (R9, decision D5). -/
abbrev Dim := BitVec 32

/-- The width of PLEN, LEFF, HDR_LEN, COUNT and OVERAGE: `LEN_BITS` = 32 (R9, decision D6). -/
abbrev Len := BitVec 32

/-- The width of CAP_BITS and CI: `CAPB_BITS` = 66 (R9). -/
abbrev CarrierWord := BitVec 66

/-- The width of CAP_BYTES: `CAPBY_BITS` = 63 (R9). -/
abbrev CapBytesWord := BitVec 63

/-- A register number on the host port: `REGNUM_BITS` = 8 (R9, R18). -/
abbrev RegNum := BitVec 8

/-- A command word, and the value of any host write: `CMD_BITS` = 32 (R9, R20). -/
abbrev CmdWord := BitVec 32

end Sys2Proof
end

