-- ==== Sys2Proof/Config.lean ====
section
/-! DEFINITION. What is fixed for the machine: the numeric parameters of 00_scope.md R8, the register
numbers of 10_state.md R19 and the opcode numbers of 30_encoding.md R56. The spec leaves no value
open, so there is no free value here. -/

namespace Sys2Proof.Config

/-- `BYTES_PER_PIXEL` (R8). -/
abbrev bytesPerPixel : Nat := 3

/-- `BIT_DEPTH`, bits of a carrier byte (R8). -/
abbrev bitDepth : Nat := 8

/-- `BITS_PER_CARRIER`: only bit 0 of a carrier byte is used (R8, R3). -/
abbrev bitsPerCarrier : Nat := 1

/-- `HEADER_BITS` (R8). -/
abbrev headerBits : Nat := 32

/-- `PAYLOAD_START`, the first payload carrier (R8, R41). -/
abbrev payloadStart : Nat := 32

/-- `BITS_PER_PAYLOAD_BYTE` (R8). -/
abbrev bitsPerPayloadByte : Nat := 8

/-! Register numbers (R19). -/

abbrev regCmd : RegNum := 0
abbrev regStatus : RegNum := 1
abbrev regWidth : RegNum := 2
abbrev regHeight : RegNum := 3
abbrev regPlen : RegNum := 4
abbrev regCapBits : RegNum := 5
abbrev regCapBytes : RegNum := 6
abbrev regLeff : RegNum := 7
abbrev regHdrLen : RegNum := 8
abbrev regCount : RegNum := 9
abbrev regCi : RegNum := 10
abbrev regOverage : RegNum := 11

/-! Opcode numbers, the OPC field of a command word (R56). -/

abbrev opCap : BitVec 4 := 1
abbrev opHdrenc : BitVec 4 := 2
abbrev opHdrdec : BitVec 4 := 3
abbrev opPack : BitVec 4 := 4
abbrev opUnpack : BitVec 4 := 5
abbrev opEmbed : BitVec 4 := 6
abbrev opExtract : BitVec 4 := 7
abbrev opConfirm : BitVec 4 := 8

end Sys2Proof.Config
end

