-- ==== Sys2Proof/Syntax.lean ====
section
/-! DEFINITION. The commands: one constructor for each row of spec/opcode_table.json (30_encoding.md
R56, R57). Commands carry no operand fields (R58). -/

namespace Sys2Proof

inductive Instr where
  /-- CAP, 40_capacity.md R75. -/
  | cap
  /-- HDRENC, 41_header.md R79. -/
  | hdrenc
  /-- HDRDEC, 41_header.md R83. -/
  | hdrdec
  /-- PACK, 42_packer.md R88. -/
  | pack
  /-- UNPACK, 43_unpacker.md R96. -/
  | unpack
  /-- EMBED, 44_embed.md R104. -/
  | embed
  /-- EXTRACT, 45_extract.md R116. -/
  | extract
  /-- CONFIRM with ANS = 0, 44_embed.md R110. -/
  | confirmNo
  /-- CONFIRM with ANS = 1, 44_embed.md R110. -/
  | confirmYes
deriving DecidableEq, Repr

end Sys2Proof
end

