-- ==== Sys2Proof/WellFormed.lean ====
section
/-! DEFINITION. The fields of a command word (30_encoding.md R55) and the checks that make them a legal
command (R57). A command has no operands (R58), so what can be ill-formed is its fields. -/

namespace Sys2Proof

/-- The three fields of the one command format (R55). -/
structure Fields where
  opc : BitVec 4
  ans : Bool
  rsv : BitVec 27
deriving DecidableEq, Repr

/-- OPC names a command: 0x1 to 0x8 (R56). -/
def Fields.opcKnown (f : Fields) : Bool :=
  Config.opCap ≤ f.opc && f.opc ≤ Config.opConfirm

/-- ANS is 0 unless the command is CONFIRM (R55, R57). -/
def Fields.ansAllowed (f : Fields) : Bool :=
  !f.ans || f.opc == Config.opConfirm

/-- RSV is 0 (R55, R57). -/
def Fields.rsvClear (f : Fields) : Bool :=
  f.rsv == 0

/-- The three checks together: the fields of a legal command word (R57). -/
def Fields.wf (f : Fields) : Bool :=
  f.opcKnown && f.ansAllowed && f.rsvClear

/-- The fields that stand for each command (R56, R57). -/
def Instr.fields : Instr → Fields
  | .cap => ⟨Config.opCap, false, 0⟩
  | .hdrenc => ⟨Config.opHdrenc, false, 0⟩
  | .hdrdec => ⟨Config.opHdrdec, false, 0⟩
  | .pack => ⟨Config.opPack, false, 0⟩
  | .unpack => ⟨Config.opUnpack, false, 0⟩
  | .embed => ⟨Config.opEmbed, false, 0⟩
  | .extract => ⟨Config.opExtract, false, 0⟩
  | .confirmNo => ⟨Config.opConfirm, false, 0⟩
  | .confirmYes => ⟨Config.opConfirm, true, 0⟩

/-- A command is well-formed when its fields are. -/
def Instr.wf (i : Instr) : Bool := i.fields.wf

end Sys2Proof
end

