-- ==== Sys2Proof/Decode.lean ====
section
/-! DEFINITION. Decoding a command word (30_encoding.md R55 to R57), total on every word and rejecting by
name, and after it the encoder. -/

namespace Sys2Proof

/-- Why a word is illegal (R57). The machine treats the three alike (30_encoding.md R61, R64). -/
inductive DecodeError where
  /-- OPC is 0x0 or 0x9 to 0xF. -/
  | unknownOpcode
  /-- ANS is set on a command other than CONFIRM. -/
  | answerSet
  /-- A reserved bit is set. -/
  | reservedSet
deriving DecidableEq, Repr

/-- Bits 3:0, 4 and 31:5 of the word (R55). -/
def fieldsOf (c : CmdWord) : Fields :=
  ⟨c.extractLsb' 0 4, c.getLsbD 4, c.extractLsb' 5 27⟩

/-- The opcode map (R56), read with ANS for CONFIRM; `none` for the opcodes that name no command. -/
def instrOf (opc : BitVec 4) (ans : Bool) : Option Instr :=
  if opc = Config.opCap then some .cap
  else if opc = Config.opHdrenc then some .hdrenc
  else if opc = Config.opHdrdec then some .hdrdec
  else if opc = Config.opPack then some .pack
  else if opc = Config.opUnpack then some .unpack
  else if opc = Config.opEmbed then some .embed
  else if opc = Config.opExtract then some .extract
  else if opc = Config.opConfirm then some (if ans then .confirmYes else .confirmNo)
  else none

/-- The decoder (R57): a legal word gives its command, every other word the name of what is wrong. -/
def decode (c : CmdWord) : Except DecodeError Instr :=
  let f := fieldsOf c
  match instrOf f.opc f.ans with
  | none => .error .unknownOpcode
  | some i =>
    if f.ansAllowed = false then .error .answerSet
    else if f.rsvClear = false then .error .reservedSet
    else .ok i

/-- `decode` for the host's numbering of an opcode-table row: `nbits` bits whose value is `w`. A
command is one 32-bit word, so a value that needs more bits is no command. -/
def decodeTableWord (nbits w : Nat) : Option Instr :=
  let v := w % 2 ^ nbits
  if v < 2 ^ 32 then
    match decode (BitVec.ofNat 32 v) with
    | .ok i => some i
    | .error _ => none
  else none

/-- Lay the fields out in a word: RSV in bits 31:5, ANS in bit 4, OPC in bits 3:0 (R55). -/
def wordOf (f : Fields) : CmdWord :=
  f.rsv ++ BitVec.ofBool f.ans ++ f.opc

/-- The command word of a command (R56, R57). -/
def encode (i : Instr) : CmdWord := wordOf i.fields

end Sys2Proof
end

