-- ==== Sys2Proof/Machine/State.lean ====
section
/-! DEFINITION. The state of the block (10_state.md R19 to R34), of what the block reaches outside itself
(20_memory.md R37) and of the host's accesses still to come, as plain data; the reasons a step can
stop; the state after reset (70_reset_and_hazards.md R138). -/

namespace Sys2Proof.Machine

/-- STATUS.STATE (10_state.md R22). Values 9 to 15 are never taken and have no constructor. -/
inductive Phase where
  | idle
  | readCapacity
  | awaitPayloadSize
  | confirmTruncation
  | writeHeader
  | writePayload
  | readHeader
  | readPayload
  | done
deriving DecidableEq, Repr

/-- STATUS.RESULT (60_exceptions.md R121). Codes 5 to 7 are assigned but never written by the block;
codes 8 to 15 are never used and have no constructor. -/
inductive Result where
  | ok
  | capacityExceededDeclined
  | incompleteExtraction
  | undersizedCarrier
  | illegalCommand
  | notAnImage
  | unsupportedBitDepth
  | payloadSourceUnavailable
deriving DecidableEq, Repr

/-- Carrier memory: the carriers that do not read as `Memory.unlisted`, by carrier index, strictly
rising (`Memory.wf`). -/
abbrev Memory := List Host.Cell

/-- One thing the host does between two steps of the block (10_state.md R18; 30_encoding.md R67, R68;
70_reset_and_hazards.md R137 to R145). DESIGN CHOICE (log entry 21): no operation takes offered bytes back or
closes the payload source, so bytes that a command leaves (42_packer.md R92) are the first that the next
one takes. -/
inductive HostOp where
  /-- The host does nothing: the block takes its own step (R65). -/
  | idle
  /-- Write a register (R18). Every writable register has 32 bits (R19). -/
  | write (reg : RegNum) (value : CmdWord)
  /-- Read a register (R18). -/
  | read (reg : RegNum)
  /-- Read STATUS until BUSY = 0 or CONFIRM_REQ = 1 (R67 `WAIT`). -/
  | wait
  /-- If STATUS shows CONFIRM_REQ = 1, write CONFIRM with this answer (R68 `EMBEDY`, `EMBEDN`). -/
  | answer (yes : Bool)
  /-- Reset the block (R137). -/
  | reset
  /-- Offer the next byte of the payload source (R48, R143). -/
  | offer (b : Byte)
  /-- Make the output sink able, or not able, to take a byte (R49, R143). -/
  | setSinkReady (ready : Bool)
  /-- Place a carrier byte (R141). -/
  | putCarrier (ci : CarrierWord) (v : Byte)
  /-- Look at a carrier byte (R141, R145). -/
  | getCarrier (ci : CarrierWord)
deriving DecidableEq, Repr

/-- What a host read returned. -/
inductive Seen where
  /-- The value of a register, widened with zeros to the widest register (R18). -/
  | reg (n : RegNum) (value : CarrierWord)
  /-- The value of a carrier byte. -/
  | carrier (ci : CarrierWord) (value : Byte)
deriving DecidableEq, Repr

/-- The whole machine. -/
structure State where
  /-- STATUS.STATE (R22). -/
  phase : Phase
  /-- STATUS.RESULT (R25). -/
  result : Result
  /-- STATUS.CMD_ERR (R26). -/
  cmdErr : Bool
  /-- STATUS.OP (R27). -/
  op : BitVec 4
  /-- WIDTH, register 2 (R28). -/
  width : Dim
  /-- HEIGHT, register 3 (R28). -/
  height : Dim
  /-- PLEN, register 4 (R28). -/
  plen : Len
  /-- CAP_BITS, register 5 (R30). -/
  capBits : CarrierWord
  /-- CAP_BYTES, register 6 (R30). -/
  capBytes : CapBytesWord
  /-- LEFF, register 7 (R30). -/
  leff : Len
  /-- HDR_LEN, register 8 (R30). -/
  hdrLen : Len
  /-- COUNT, register 9 (R30). -/
  count : Len
  /-- CI, register 10 (R30, R31). -/
  ci : CarrierWord
  /-- OVERAGE, register 11 (R30). -/
  overage : Len
  /-- ACC (R33). -/
  acc : Byte
  /-- BITPOS (R33). -/
  bitpos : BitVec 3
  /-- Carrier memory, the host's (20_memory.md R37). -/
  mem : Memory
  /-- Payload source: the bytes offered and not yet taken, the next one first (R48). -/
  src : List Byte
  /-- Output sink: the bytes given to it, the oldest first (R49). -/
  sink : List Byte
  /-- The model's own: whether the sink can take a byte now (R49). -/
  sinkReady : Bool
  /-- The model's own: the host's accesses still to come, the next one first. -/
  port : List HostOp
  /-- The model's own: what the host's reads have returned, the oldest first. -/
  seen : List Seen
deriving DecidableEq, Repr

/-- Why the machine stops. All four are raised only in states that no run from reset reaches
(Safety.lean `Inv`), so all four are safe: no true behaviour of the block is lost. -/
inductive Fault where
  /-- Raised by the header and payload steps: a carrier access at or above CAP_BITS, where
  `CarRead` and `CarWrite` are not defined (20_memory.md R39). Safe. -/
  | carrierOutOfRange
  /-- Raised by WRITE_HEADER and READ_HEADER: CI above 32, so bit CI of a 32-bit register does not
  exist (41_header.md R80, R84: "0 <= i < 32"). Safe. -/
  | headerIndexOutOfRange
  /-- Raised by WRITE_PAYLOAD and READ_PAYLOAD: CI below 32, so `R[CI] - 32` is no unsigned number
  (42_packer.md R89, 43_unpacker.md R97: "32 <= ci"). Safe. -/
  | payloadIndexBelowHeader
  /-- Raised by READ_CAPACITY when STATUS.OP is neither CAP nor EMBED: 30_encoding.md R65 names no
  step rule. Safe. -/
  | noStepRule
deriving DecidableEq, Repr

/-- Why the model gives no meaning. -/
inductive Refusal where
  /-- Raised by an arm of `exec` that has no meaning yet; no arm raises it. Safe. -/
  | notModelled (mnemonic : String)
  /-- Raised when the host reads or writes carrier memory while BUSY = 1, which it must not
  (70_reset_and_hazards.md R145; 93_implementation_defined.md U4: "refuse"). Safe. -/
  | hostCarrierAccessWhileBusy
deriving DecidableEq, Repr

/-- The machine right after reset (70_reset_and_hazards.md R138), with nothing placed in carrier
memory and nothing offered, given or asked for by the host (log entries 3, 8, 9). -/
def State.reset : State where
  phase := .idle
  result := .ok
  cmdErr := false
  op := 0
  width := 0
  height := 0
  plen := 0
  capBits := 0
  capBytes := 0
  leff := 0
  hdrLen := 0
  count := 0
  ci := 0
  overage := 0
  acc := 0
  bitpos := 0
  mem := []
  src := []
  sink := []
  sinkReady := true
  port := []
  seen := []

end Sys2Proof.Machine
end

