-- ==== Sys2Proof/Machine/Flags.lean ====
section
/-! DEFINITION. The fields of STATUS (10_state.md R21 to R27): the codes of STATE and RESULT, the two fields
that are functions of STATE, and the whole word. The block has no other flag (R35). -/

namespace Sys2Proof.Machine

/-- The value of STATUS.STATE (R22). -/
def Phase.code : Phase → BitVec 4
  | .idle => 0
  | .readCapacity => 1
  | .awaitPayloadSize => 2
  | .confirmTruncation => 3
  | .writeHeader => 4
  | .writePayload => 5
  | .readHeader => 6
  | .readPayload => 7
  | .done => 8

/-- The value of STATUS.RESULT (60_exceptions.md R121). -/
def Result.code : Result → BitVec 4
  | .ok => 0
  | .capacityExceededDeclined => 1
  | .incompleteExtraction => 2
  | .undersizedCarrier => 3
  | .illegalCommand => 4
  | .notAnImage => 5
  | .unsupportedBitDepth => 6
  | .payloadSourceUnavailable => 7

/-- STATUS.BUSY: STATE is neither IDLE nor DONE (R23). -/
def busy (s : State) : Bool :=
  s.phase != .idle && s.phase != .done

/-- STATUS.CONFIRM_REQ: STATE is CONFIRM_TRUNCATION (R24). -/
def confirmReq (s : State) : Bool :=
  s.phase == .confirmTruncation

/-- The STATUS word, its fields from bit 31 down (R21); the reserved bits read 0. -/
def statusWord (s : State) : BitVec 32 :=
  (0 : BitVec 12) ++ s.op ++ (0 : BitVec 3) ++ BitVec.ofBool s.cmdErr ++ s.result.code
    ++ (0 : BitVec 2) ++ BitVec.ofBool (confirmReq s) ++ BitVec.ofBool (busy s) ++ s.phase.code

end Sys2Proof.Machine
end

