-- ==== Sys2Proof/Machine/Operands.lean ====
section
/-! DEFINITION. Where a command finds its operands and what the host reads: the register port
(10_state.md R18 to R20, R28, R30, R32), the capacity function (40_capacity.md R70 to R74), the single
bits (00_scope.md R11, R14) and the layout of the carrier index (20_memory.md R38, R41). -/

namespace Sys2Proof.Machine

/-- `SetLsb(v, b) = (v & 0xFE) | b` (R14). -/
def setLsb (v : Byte) (b : Bool) : Byte :=
  (v &&& 0xFE#8) ||| (BitVec.ofBool b).setWidth 8

/-- `v & 1`, bit 0 of a carrier byte (R81, R97). -/
def lsb (v : Byte) : Bool := v.getLsbD 0

/-- available_bits, `3 * WIDTH * HEIGHT`, exact: it is below 2^66 (R72). -/
def capBitsOf (width height : Dim) : CarrierWord :=
  BitVec.ofNat 66 (Config.bytesPerPixel * width.toNat * height.toNat)

/-- available_bytes, `CAP_BITS div 8` (R73). -/
def capBytesOf (capBits : CarrierWord) : CapBytesWord :=
  BitVec.ofNat 63 (capBits.toNat / Config.bitsPerPayloadByte)

/-- A host read of a register, widened with zeros to the widest register (R18). CMD reads 0 (R20), and
so do the reserved numbers (R32). -/
def readReg (n : RegNum) (s : State) : CarrierWord :=
  if n = Config.regStatus then (statusWord s).setWidth 66
  else if n = Config.regWidth then s.width.setWidth 66
  else if n = Config.regHeight then s.height.setWidth 66
  else if n = Config.regPlen then s.plen.setWidth 66
  else if n = Config.regCapBits then s.capBits
  else if n = Config.regCapBytes then s.capBytes.setWidth 66
  else if n = Config.regLeff then s.leff.setWidth 66
  else if n = Config.regHdrLen then s.hdrLen.setWidth 66
  else if n = Config.regCount then s.count.setWidth 66
  else if n = Config.regCi then s.ci
  else if n = Config.regOverage then s.overage.setWidth 66
  else 0

/-- A host write of a register other than CMD. WIDTH, HEIGHT and PLEN take the value when not busy, and
a write of one of them while busy only sets CMD_ERR (R28, R29); every other write is ignored (R21,
R30, R32). -/
def writeReg (n : RegNum) (value : CmdWord) (s : State) : State :=
  if n = Config.regWidth ∨ n = Config.regHeight ∨ n = Config.regPlen then
    if busy s then { s with cmdErr := true }
    else if n = Config.regWidth then { s with width := value }
    else if n = Config.regHeight then { s with height := value }
    else { s with plen := value }
  else s

/-! The layout behind the carrier index (R38), which the host keeps and the block never sees. -/

/-- Carrier bytes of one row, `RB = 3·WIDTH` (R38). -/
def rowBytes (width : Dim) : Nat := Config.bytesPerPixel * width.toNat

/-- The carrier index of byte `j` of row `r` (R38). -/
def carrierIndex (width : Dim) (r j : Nat) : Nat := r * rowBytes width + j

/-- The row of a carrier index (R38). -/
def rowOf (width : Dim) (ci : Nat) : Nat := ci / rowBytes width

/-- The place in its row of a carrier index (R38). -/
def byteInRow (width : Dim) (ci : Nat) : Nat := ci % rowBytes width

/-- The pixel of its row that byte `j` belongs to (R38). -/
def pixelOf (j : Nat) : Nat := j / Config.bytesPerPixel

/-- The carrier of bit `b` of payload byte `j` (R41, R45). -/
def payloadCarrier (j b : Nat) : Nat :=
  Config.payloadStart + Config.bitsPerPayloadByte * j + b

/-- The payload bytes that fit after the header, which the block does not compute (R74). -/
def usableBytes (capBits : CarrierWord) : Nat :=
  (capBits.toNat - Config.headerBits) / Config.bitsPerPayloadByte

end Sys2Proof.Machine
end

