-- ==== Sys2Proof/Machine/Ops.lean ====
section
/-! DEFINITION. The shared operations: carrier memory and its canonical form (20_memory.md R37 to R40),
the two streams (R48, R49), ending an operation (00_scope.md R15), taking a command and turning one
away (30_encoding.md R59 to R64), and reset (70_reset_and_hazards.md R137 to R139). The block has no
trap: `finish` is what the spec's errors do (60_exceptions.md R123, R130). -/

namespace Sys2Proof.Machine

/-! Carrier memory. -/

/-- DESIGN CHOICE (unsafe, log entry 3): a carrier that nothing has placed reads as 0x00. -/
def Memory.unlisted : Byte := 0x00

/-- The canonical form: carrier indices strictly rising, and no entry equal to what an unlisted index
reads as. -/
abbrev Memory.wf (m : Memory) : Prop :=
  m.Pairwise (fun x y => x.1 < y.1) ∧ ∀ c ∈ m, c.2 ≠ Memory.unlisted

/-- The byte at a carrier index. -/
def Memory.read : Memory → Nat → Byte
  | [], _ => Memory.unlisted
  | (a, v) :: m, k => if a = k then v else Memory.read m k

/-- An entry at the head of a memory, unless it says what an unlisted index reads as anyway. -/
def Memory.entry (k : Nat) (v : Byte) (m : Memory) : Memory :=
  if v = Memory.unlisted then m else (k, v) :: m

/-- Put a byte at a carrier index, keeping the canonical form. -/
def Memory.write : Memory → Nat → Byte → Memory
  | [], k, v => Memory.entry k v []
  | (a, w) :: m, k, v =>
    if a < k then (a, w) :: Memory.write m k v
    else if a = k then Memory.entry k v m
    else Memory.entry k v ((a, w) :: m)

/-- `CarRead(ci)`, defined for `ci < CAP_BITS` (R39). -/
def carRead (ci : CarrierWord) (s : State) : Option Byte :=
  if ci < s.capBits then some (Memory.read s.mem ci.toNat) else none

/-- `CarWrite(ci, v)`, defined for `ci < CAP_BITS` (R39). -/
def carWrite (ci : CarrierWord) (v : Byte) (s : State) : Option State :=
  if ci < s.capBits then some { s with mem := Memory.write s.mem ci.toNat v } else none

/-- `CarWrite(ci, SetLsb(CarRead(ci), b))`, the only carrier write of the block (R40). -/
def carSetLsb (ci : CarrierWord) (b : Bool) (s : State) : Option State :=
  match carRead ci s with
  | none => none
  | some v => carWrite ci (setLsb v b) s

/-! The streams; `none` means that the step is held (R16). -/

/-- `SrcRead()` into ACC: the next byte of the payload source (R48, R89). -/
def srcRead (s : State) : Option State :=
  match s.src with
  | [] => none
  | b :: rest => some { s with src := rest, acc := b }

/-- `SinkWrite(b)` (R49). -/
def sinkWrite (b : Byte) (s : State) : Option State :=
  if s.sinkReady then some { s with sink := s.sink ++ [b] } else none

/-- A held step does not fire and the state is unchanged (R16). -/
def held (s : State) : Host.Outcome State Fault Refusal := .next s

/-! Commands. -/

/-- `finish(RESULT_CODE)` (R15). -/
def finish (r : Result) (s : State) : State :=
  { s with result := r, phase := .done }

/-- What taking a legal command writes, whichever it is (R62). STATE is set after it (R63). -/
def take (op : BitVec 4) (s : State) : State :=
  let cap := capBitsOf s.width s.height
  { s with
    op := op
    result := .ok
    cmdErr := false
    capBits := cap
    capBytes := capBytesOf cap
    ci := 0
    count := 0
    hdrLen := 0
    leff := 0
    overage := 0
    acc := 0
    bitpos := 0 }

/-- The undersized check of the carrier commands at taking, and where they go otherwise (R63). -/
def unlessUndersized (s t : State) : State :=
  if s.capBits.toNat < Config.headerBits then finish .undersizedCarrier s else t

/-- A command or configuration write that is turned away while busy: only CMD_ERR changes (R26, R64). -/
def turnAway (s : State) : State :=
  { s with cmdErr := true }

/-- An illegal command taken in IDLE or DONE (R61); `opc` is bits 3:0 of the word. -/
def takeIllegal (opc : BitVec 4) (s : State) : State :=
  finish .illegalCommand { s with op := opc, cmdErr := false }

/-- A write of an illegal word to CMD, by STATE at the time of the write (R59, R61, R64). -/
def commandIllegal (opc : BitVec 4) (s : State) : State :=
  if busy s then turnAway s else takeIllegal opc s

/-- A write to CMD of a CONFIRM word: taken in CONFIRM_TRUNCATION, illegal in IDLE and DONE, turned away
otherwise (R59, R61, R64, R109). -/
def confirmWith (answer : State → State) (s : State) : State :=
  if confirmReq s then answer s else commandIllegal Config.opConfirm s

/-- A write to CMD of a legal word with OPC 0x1 to 0x7: `start` is what taking it does (R59, R62, R64). -/
def commandWith (start : State → State) (s : State) : State :=
  if busy s then turnAway s else start s

/-- Reset of the block: every piece of its own state goes to the value of R138, and carrier memory, the
streams and the host's side stay (R137, R139). -/
def resetBlock (s : State) : State :=
  { State.reset with
    mem := s.mem, src := s.src, sink := s.sink, sinkReady := s.sinkReady, port := s.port, seen := s.seen }

end Sys2Proof.Machine
end

