-- ==== Sys2Proof/Machine/Capacity.lean ====
section
/-! DEFINITION. The capacity calculator: CAP (40_capacity.md R75, R76). -/

namespace Sys2Proof.Machine

/-- Taking CAP (30_encoding.md R62, R63; R75). -/
def startCap (s : State) : State :=
  { take Config.opCap s with phase := .readCapacity }

/-- The write of the word CAP to CMD (R75). -/
def execCap (s : State) : Host.Outcome State Fault Refusal :=
  .next (commandWith startCap s)

/-- READ_CAPACITY under CAP: the operation is over, RESULT stays OK (R76). -/
def capReady (s : State) : State := { s with phase := .done }

end Sys2Proof.Machine
end

