-- ==== Sys2Proof/Machine/Embed.lean ====
section
/-! DEFINITION. The embed controller: EMBED, its steps READ_CAPACITY and AWAIT_PAYLOAD_SIZE, and CONFIRM
(44_embed.md R104 to R110). -/

namespace Sys2Proof.Machine

/-- Taking EMBED (30_encoding.md R62, R63; R104). -/
def startEmbed (s : State) : State :=
  { take Config.opEmbed s with phase := .readCapacity }

/-- The write of the word EMBED to CMD (R104). -/
def execEmbed (s : State) : Host.Outcome State Fault Refusal :=
  .next (commandWith startEmbed s)

/-- READ_CAPACITY under EMBED: the undersized check (R105). -/
def embedReadCapacity (s : State) : State :=
  unlessUndersized s { s with phase := .awaitPayloadSize }

/-- AWAIT_PAYLOAD_SIZE: ask when PLEN exceeds the header-inclusive CAP_BYTES, strictly (R106). -/
def embedAwaitPayloadSize (s : State) : State :=
  if s.capBytes.toNat < s.plen.toNat then
    { s with
      overage := BitVec.ofNat 32 (s.plen.toNat - s.capBytes.toNat)
      phase := .confirmTruncation }
  else { s with leff := s.plen, phase := .writeHeader }

/-- The answer "no": the operation ends with nothing written (R110). -/
def declineTruncation (s : State) : State :=
  finish .capacityExceededDeclined { s with count := 0 }

/-- The answer "yes": the length is clamped to CAP_BYTES, which PLEN exceeds here, so it has 32 bits
(R110; log entry 7). -/
def acceptTruncation (s : State) : State :=
  { s with leff := s.capBytes.setWidth 32, phase := .writeHeader }

/-- The write of the word CONFIRM with ANS = 0 to CMD (R110). -/
def execConfirmNo (s : State) : Host.Outcome State Fault Refusal :=
  .next (confirmWith declineTruncation s)

/-- The write of the word CONFIRM with ANS = 1 to CMD (R110). -/
def execConfirmYes (s : State) : Host.Outcome State Fault Refusal :=
  .next (confirmWith acceptTruncation s)

end Sys2Proof.Machine
end

