-- ==== Sys2Proof/Machine/Extract.lean ====
section
/-! DEFINITION. The extract controller: EXTRACT (45_extract.md R116). Its steps are READ_HEADER (Header.lean)
and READ_PAYLOAD (Unpacker.lean). -/

namespace Sys2Proof.Machine

/-- Taking EXTRACT (30_encoding.md R62, R63; R116). PLEN is not read. -/
def startExtract (s : State) : State :=
  let t := take Config.opExtract s
  unlessUndersized t { t with phase := .readHeader }

/-- The write of the word EXTRACT to CMD (R116). -/
def execExtract (s : State) : Host.Outcome State Fault Refusal :=
  .next (commandWith startExtract s)

end Sys2Proof.Machine
end

