-- ==== Sys2Proof/Machine/Header.lean ====
section
/-! DEFINITION. The length-header packer and unpacker: HDRENC, HDRDEC and the steps of WRITE_HEADER and
READ_HEADER, which EMBED and EXTRACT share (41_header.md R78 to R84). -/

namespace Sys2Proof.Machine

/-- Taking HDRENC (30_encoding.md R62, R63; R79). -/
def startHdrenc (s : State) : State :=
  let t := take Config.opHdrenc s
  unlessUndersized t { t with leff := t.plen, phase := .writeHeader }

/-- The write of the word HDRENC to CMD (R79). -/
def execHdrenc (s : State) : Host.Outcome State Fault Refusal :=
  .next (commandWith startHdrenc s)

/-- Taking HDRDEC (30_encoding.md R62, R63; R83). -/
def startHdrdec (s : State) : State :=
  let t := take Config.opHdrdec s
  unlessUndersized t { t with phase := .readHeader }

/-- The write of the word HDRDEC to CMD (R83). -/
def execHdrdec (s : State) : Host.Outcome State Fault Refusal :=
  .next (commandWith startHdrdec s)

/-- The WRITE_HEADER step (R80): bit CI of LEFF goes to bit 0 of carrier CI, and after the last one HDRENC
is done and EMBED goes on with the payload. -/
def stepWriteHeader (s : State) : Host.Outcome State Fault Refusal :=
  if s.ci.toNat = Config.headerBits then
    if s.op = Config.opHdrenc then .next { s with phase := .done }
    else .next { s with phase := .writePayload }
  else if s.ci.toNat < Config.headerBits then
    match carSetLsb s.ci (s.leff.getLsbD s.ci.toNat) s with
    | none => .fault .carrierOutOfRange
    | some t => .next { t with ci := s.ci + 1 }
  else .fault .headerIndexOutOfRange

/-- `HDR_LEN | ((byte & 1) << i)` (R81, R84). -/
def orBit (v : Len) (i : Nat) (b : Bool) : Len :=
  v ||| (BitVec.ofBool b).setWidth 32 <<< i

/-- The READ_HEADER step (R84): bit 0 of carrier CI is or-ed into bit CI of HDR_LEN, and after the last one
HDRDEC is done and EXTRACT goes on with the payload. -/
def stepReadHeader (s : State) : Host.Outcome State Fault Refusal :=
  if s.ci.toNat = Config.headerBits then
    if s.op = Config.opHdrdec then .next { s with phase := .done }
    else .next { s with leff := s.hdrLen, phase := .readPayload }
  else if s.ci.toNat < Config.headerBits then
    match carRead s.ci s with
    | none => .fault .carrierOutOfRange
    | some v => .next { s with hdrLen := orBit s.hdrLen s.ci.toNat (lsb v), ci := s.ci + 1 }
  else .fault .headerIndexOutOfRange

end Sys2Proof.Machine
end

