-- ==== Sys2Proof/Machine/Packer.lean ====
section
/-! DEFINITION. The LSB encoder, the BitPacker: PACK and the step of WRITE_PAYLOAD, which EMBED shares
(42_packer.md R88, R89). -/

namespace Sys2Proof.Machine

/-- Taking PACK (30_encoding.md R62, R63; R88). -/
def startPack (s : State) : State :=
  let t := take Config.opPack s
  unlessUndersized t
    { t with leff := t.plen, ci := BitVec.ofNat 66 Config.payloadStart, phase := .writePayload }

/-- The write of the word PACK to CMD (R88). -/
def execPack (s : State) : Host.Outcome State Fault Refusal :=
  .next (commandWith startPack s)

/-- The payload bits handled so far are all of `8 · LEFF`, exactly (R89, R97). -/
def payloadComplete (s : State) : Bool :=
  s.ci.toNat - Config.payloadStart == Config.bitsPerPayloadByte * s.leff.toNat

/-- The carrier bytes have run out (R89, R97). -/
def carriersExhausted (s : State) : Bool := s.capBits ≤ s.ci

/-- `if BITPOS = 0 then ACC <- SrcRead()`; `none` when the step is held (R89). -/
def loadAcc (s : State) : Option State :=
  if s.bitpos = 0 then srcRead s else some s

/-- The WRITE_PAYLOAD step (R89). -/
def stepWritePayload (s : State) : Host.Outcome State Fault Refusal :=
  if s.ci.toNat < Config.payloadStart then .fault .payloadIndexBelowHeader
  else if payloadComplete s || carriersExhausted s then
    .next { s with count := s.leff, phase := .done }
  else
    match loadAcc s with
    | none => held s
    | some t =>
      match carSetLsb s.ci (t.acc.getLsbD s.bitpos.toNat) t with
      | none => .fault .carrierOutOfRange
      | some u => .next { u with ci := s.ci + 1, bitpos := s.bitpos + 1 }

end Sys2Proof.Machine
end

