-- ==== Sys2Proof/Machine/Unpacker.lean ====
section
/-! DEFINITION. The LSB decoder, the BitUnpacker: UNPACK and the step of READ_PAYLOAD, which EXTRACT shares
(43_unpacker.md R96, R97). -/

namespace Sys2Proof.Machine

/-- Taking UNPACK (30_encoding.md R62, R63; R96). -/
def startUnpack (s : State) : State :=
  let t := take Config.opUnpack s
  unlessUndersized t
    { t with leff := t.plen, ci := BitVec.ofNat 66 Config.payloadStart, phase := .readPayload }

/-- The write of the word UNPACK to CMD (R96). -/
def execUnpack (s : State) : Host.Outcome State Fault Refusal :=
  .next (commandWith startUnpack s)

/-- `ACC | ((byte & 1) << BITPOS)` (R97). -/
def accumulate (acc : Byte) (bitpos : BitVec 3) (b : Bool) : Byte :=
  acc ||| (BitVec.ofBool b).setWidth 8 <<< bitpos.toNat

/-- Keep the accumulated byte, or, when it is complete, give it to the sink and count it; `none` when the
step is held (R97). -/
def deliver (a : Byte) (s : State) : Option State :=
  if s.bitpos = 7 then
    match sinkWrite a s with
    | none => none
    | some t => some { t with count := s.count + 1, acc := 0 }
  else some { s with acc := a }

/-- The READ_PAYLOAD step (R97): completion is tested before exhaustion. -/
def stepReadPayload (s : State) : Host.Outcome State Fault Refusal :=
  if s.ci.toNat < Config.payloadStart then .fault .payloadIndexBelowHeader
  else if payloadComplete s then .next { s with phase := .done }
  else if carriersExhausted s then .next (finish .incompleteExtraction s)
  else
    match carRead s.ci s with
    | none => .fault .carrierOutOfRange
    | some v =>
      match deliver (accumulate s.acc s.bitpos (lsb v)) s with
      | none => held s
      | some t => .next { t with ci := s.ci + 1, bitpos := s.bitpos + 1 }

end Sys2Proof.Machine
end

