-- ==== Sys2Proof/Machine/Block.lean ====
section
/-! DEFINITION. The block's own step, chosen by STATUS.STATE when no host access happens (30_encoding.md
R65). -/

namespace Sys2Proof.Machine

/-- A state in which the block takes no step waits: the state stays (R65, R107, R136; log entry 2). -/
def waitForHost (s : State) : Host.Outcome State Fault Refusal := .next s

/-- READ_CAPACITY under the two commands that have it (R65). -/
def stepReadCapacity (s : State) : Host.Outcome State Fault Refusal :=
  if s.op = Config.opCap then .next (capReady s)
  else if s.op = Config.opEmbed then .next (embedReadCapacity s)
  else .fault .noStepRule

/-- The block's own step (R65). -/
def blockStep (s : State) : Host.Outcome State Fault Refusal :=
  match s.phase with
  | .idle => waitForHost s
  | .readCapacity => stepReadCapacity s
  | .awaitPayloadSize => .next (embedAwaitPayloadSize s)
  | .confirmTruncation => waitForHost s
  | .writeHeader => stepWriteHeader s
  | .writePayload => stepWritePayload s
  | .readHeader => stepReadHeader s
  | .readPayload => stepReadPayload s
  | .done => waitForHost s

end Sys2Proof.Machine
end

