-- ==== Sys2Proof/Machine/Port.lean ====
section
/-! DEFINITION. The host's side of a step: a write to CMD (30_encoding.md R59 to R66), the other accesses of
the register port (10_state.md R18 to R32), reset (70_reset_and_hazards.md R137), the streams and
carrier memory (20_memory.md R48, R49; 70_reset_and_hazards.md R141 to R145), WAIT and the conditional
CONFIRM (30_encoding.md R67, R68). -/

namespace Sys2Proof.Machine

/-- A host write of a word to CMD: a legal word runs its command, any other word is an illegal command
(R59, R61, R64, R66). -/
def writeCmd (c : CmdWord) (s : State) : Host.Outcome State Fault Refusal :=
  match decode c with
  | .ok i => exec i s
  | .error _ => .next (commandIllegal (c.extractLsb' 0 4) s)

/-- A host write of a register (R18). -/
def hostWrite (n : RegNum) (value : CmdWord) (s : State) : Host.Outcome State Fault Refusal :=
  if n = Config.regCmd then writeCmd value s else .next (writeReg n value s)

/-- A host read of a register: the value is returned and nothing else changes (R18, R20, R149). -/
def hostRead (n : RegNum) (s : State) : State :=
  { s with seen := s.seen ++ [.reg n (readReg n s)] }

/-- The block is waiting for the host as far as STATUS shows: `WAIT` ends (R67). -/
def waitOver (s : State) : Bool := !busy s || confirmReq s

/-- The command of an answer (R67 `CONFIRM yes`, `CONFIRM no`). -/
def answerCommand (yes : Bool) : Instr := if yes then .confirmYes else .confirmNo

/-- One host operation, already taken off the port (log entries 1, 4, 11, 12). -/
def serve (e : HostOp) (s : State) : Host.Outcome State Fault Refusal :=
  match e with
  | .idle => blockStep s
  | .write n value => hostWrite n value s
  | .read n => .next (hostRead n s)
  | .wait => if waitOver s then .next s else blockStep { s with port := .wait :: s.port }
  | .answer yes => if confirmReq s then writeCmd (encode (answerCommand yes)) s else .next s
  | .reset => .next (resetBlock s)
  | .offer b => .next { s with src := s.src ++ [b] }
  | .setSinkReady r => .next { s with sinkReady := r }
  | .putCarrier ci v =>
    if busy s then .refused .hostCarrierAccessWhileBusy
    else .next { s with mem := Memory.write s.mem ci.toNat v }
  | .getCarrier ci =>
    if busy s then .refused .hostCarrierAccessWhileBusy
    else .next { s with seen := s.seen ++ [.carrier ci (Memory.read s.mem ci.toNat)] }

/-- Take the next host operation off the port and serve it; with none left the block takes its own step. -/
def portStep (s : State) : Host.Outcome State Fault Refusal :=
  match s.port with
  | [] => blockStep s
  | e :: rest => serve e { s with port := rest }

/-- Put a host write of a command word before everything else the host does. -/
def pushCommand (c : CmdWord) (s : State) : State :=
  { s with port := .write Config.regCmd c :: s.port }

end Sys2Proof.Machine
end

