-- ==== Sys2Proof/Machine/Step.lean ====
section
/-! DEFINITION. One step of the machine (00_scope.md R16; 30_encoding.md R59, R65), and where the next command
is taken from. -/

namespace Sys2Proof.Machine

/-- One step: the host's next access, or, with none, the block's own step. -/
def step (s : State) : Host.Outcome State Fault Refusal := portStep s

/-- `s` with a command word standing where `step` takes its next command: a host write to CMD at the head
of the port (log entry 10). A command is one 32-bit word (R55). -/
def State.withFetchWord (s : State) (nbits w : Nat) : State :=
  pushCommand (BitVec.ofNat 32 (w % 2 ^ nbits)) s

end Sys2Proof.Machine
end

