-- ==== Sys2Proof/Machine/Assembler.lean ====
section
/-! DEFINITION. The textual host program of 30_encoding.md R67 and R68, one constructor per line form, and
its expansion into host operations. -/

namespace Sys2Proof.Machine

/-- A line of a host program (R67) or a pseudo-operation (R68). -/
inductive AsmLine where
  /-- `CAP` … `EXTRACT`, `CONFIRM yes`, `CONFIRM no`. -/
  | command (i : Instr)
  /-- `WR <reg>, <value>`. -/
  | wr (reg : RegNum) (value : CmdWord)
  /-- `RD <reg>`. -/
  | rd (reg : RegNum)
  /-- `WAIT`. -/
  | wait
  /-- `.cm <ci>: <b0> <b1> ...`. -/
  | cm (ci : CarrierWord) (bytes : List Byte)
  /-- `.src <b0> <b1> ...`. -/
  | src (bytes : List Byte)
  /-- `DIM <w>, <h>`. -/
  | dim (w h : Dim)
  /-- `LEN <n>`. -/
  | len (n : Len)
  /-- `RUN <cmd>`. -/
  | run (i : Instr)
  /-- `EMBEDY`. -/
  | embedy
  /-- `EMBEDN`. -/
  | embedn
deriving DecidableEq, Repr

/-- The write of a command's word to CMD (R67). -/
def issue (i : Instr) : HostOp := .write Config.regCmd (encode i)

/-- Carrier bytes placed one after another from an index (R67 `.cm`). DESIGN CHOICE (log entry 23): the index
after 2^66 - 1 is 0; the spec gives a line that runs past the largest index no meaning. -/
def placeFrom (ci : CarrierWord) : List Byte → List HostOp
  | [] => []
  | b :: bs => .putCarrier ci b :: placeFrom (ci + 1) bs

/-- What a line has the host do (R67, R68). -/
def AsmLine.expand : AsmLine → List HostOp
  | .command i => [issue i]
  | .wr reg value => [.write reg value]
  | .rd reg => [.read reg]
  | .wait => [.wait]
  | .cm ci bytes => placeFrom ci bytes
  | .src bytes => bytes.map .offer
  | .dim w h => [.write Config.regWidth w, .write Config.regHeight h]
  | .len n => [.write Config.regPlen n]
  | .run i => [issue i, .wait]
  | .embedy => [issue .embed, .wait, .answer true, .wait]
  | .embedn => [issue .embed, .wait, .answer false]

/-- The lines that say what carrier memory and the payload source hold before the program (R67 `.cm`, `.src`),
and do nothing at a point of it. -/
def AsmLine.isSetup : AsmLine → Bool
  | .cm _ _ => true
  | .src _ => true
  | .command _ => false
  | .wr _ _ => false
  | .rd _ => false
  | .wait => false
  | .dim _ _ => false
  | .len _ => false
  | .run _ => false
  | .embedy => false
  | .embedn => false

/-- A whole host program: the `.cm` and `.src` lines before all others, wherever they stand, each kind in the
order of the text. R67 says "before the program" of `.cm`; for `.src` this is DEDUCED (log entry 22). -/
def assemble (lines : List AsmLine) : List HostOp :=
  (lines.filter AsmLine.isSetup).flatMap AsmLine.expand ++
    (lines.filter fun l => !l.isSetup).flatMap AsmLine.expand

end Sys2Proof.Machine
end

