-- ==== Sys2Proof/Safety.lean ====
section
/-! DEFINITION. What counts as a good state and a good run, in the terms the statements use: runs of several
steps, the invariant of every reachable state (10_state.md R22, R30, R34; 20_memory.md R39;
60_exceptions.md R122, R124), reachability, and what taking a command leaves (30_encoding.md R62). -/

namespace Sys2Proof.Machine

/-- `k` steps, stopping at the first fault or refusal. -/
def run : Nat → State → Host.Outcome State Fault Refusal
  | 0, s => .next s
  | k + 1, s =>
    match step s with
    | .next t => run k t
    | .fault r => .fault r
    | .refused r => .refused r

/-- The registers and internal state that taking a command clears (30_encoding.md R62), all still 0. -/
structure Cleared (s : State) : Prop where
  ci : s.ci = 0
  count : s.count = 0
  hdrLen : s.hdrLen = 0
  leff : s.leff = 0
  overage : s.overage = 0
  acc : s.acc = 0
  bitpos : s.bitpos = 0

/-- The host's configuration registers are the same. -/
structure SameConfig (s t : State) : Prop where
  width : t.width = s.width
  height : t.height = s.height
  plen : t.plen = s.plen

/-- Carrier memory, both streams and the host's own side are the same. -/
structure SameOutside (s t : State) : Prop where
  mem : t.mem = s.mem
  src : t.src = s.src
  sink : t.sink = s.sink
  sinkReady : t.sinkReady = s.sinkReady
  port : t.port = s.port
  seen : t.seen = s.seen

/-- What the step that takes a legal command leaves, whichever command it is (30_encoding.md R62), apart
from RESULT, STATE, LEFF and CI, which R63 goes on to set. -/
structure TakenAs (op : BitVec 4) (s t : State) : Prop where
  op_eq : t.op = op
  cmdErr : t.cmdErr = false
  capBits : t.capBits.toNat = 3 * s.width.toNat * s.height.toNat
  capBytes : t.capBytes.toNat = 3 * s.width.toNat * s.height.toNat / 8
  count : t.count = 0
  hdrLen : t.hdrLen = 0
  overage : t.overage = 0
  acc : t.acc = 0
  bitpos : t.bitpos = 0
  config : SameConfig s t
  outside : SameOutside s t

/-- Writing this command answers a next state, in which R62 has been done and RESULT, STATE, LEFF and CI are
these (30_encoding.md R62, R63). -/
def StartsAs (i : Instr) (op : BitVec 4) (s : State) (result : Result) (phase : Phase) (leff : Len) (ci : Nat) :
    Prop :=
  ∃ t, exec i s = .next t ∧ TakenAs op s t ∧ t.result = result ∧ t.phase = phase ∧ t.leff = leff
    ∧ t.ci.toNat = ci

/-- A state from which a running payload phase is counted: CI at least 32 and within the carriers, no more
than 8·LEFF bits handled, BITPOS in step with CI (10_state.md R34). -/
structure PayloadProgress (s : State) : Prop where
  header_done : 32 ≤ s.ci.toNat
  in_carriers : s.ci.toNat ≤ s.capBits.toNat
  in_length : s.ci.toNat - 32 ≤ 8 * s.leff.toNat
  bitpos : s.bitpos.toNat = (s.ci.toNat - 32) % 8

/-- The length an EMBED works with: PLEN, clamped to CAP_BYTES (44_embed.md R106, R110). -/
def EmbedLength (s : State) : Prop :=
  s.leff.toNat = min s.plen.toNat s.capBytes.toNat

/-- What an operation that ended with OK leaves, by the command in STATUS.OP (42_packer.md R93;
43_unpacker.md R100; 41_header.md R79, R83; 40_capacity.md R75). -/
def EndedOk (s : State) : Prop :=
  (s.op = Config.opCap ∧ Cleared s) ∨
  (s.op = Config.opHdrenc ∧ 32 ≤ s.capBits.toNat ∧ s.ci.toNat = 32 ∧ s.count = 0 ∧ s.hdrLen = 0) ∨
  (s.op = Config.opHdrdec ∧ 32 ≤ s.capBits.toNat ∧ s.ci.toNat = 32 ∧ s.count = 0 ∧ s.leff = 0) ∨
  ((s.op = Config.opPack ∨ s.op = Config.opEmbed) ∧ 32 ≤ s.capBits.toNat ∧ s.count = s.leff
    ∧ s.ci.toNat = 32 + min (8 * s.leff.toNat) (s.capBits.toNat - 32) ∧ s.hdrLen = 0) ∨
  ((s.op = Config.opUnpack ∨ s.op = Config.opExtract) ∧ s.count = s.leff
    ∧ s.ci.toNat = 32 + 8 * s.leff.toNat ∧ s.ci.toNat ≤ s.capBits.toNat
    ∧ (s.op = Config.opExtract → s.hdrLen = s.leff))

/-- What a finished operation leaves, by its result (60_exceptions.md R122, R124). -/
def Ended (s : State) : Prop :=
  match s.result with
  | .ok => EndedOk s
  | .capacityExceededDeclined =>
    s.op = Config.opEmbed ∧ 32 ≤ s.capBits.toNat ∧ s.count = 0 ∧ s.leff = 0 ∧ s.ci = 0 ∧ s.hdrLen = 0
      ∧ 0 < s.overage.toNat
  | .incompleteExtraction =>
    (s.op = Config.opUnpack ∨ s.op = Config.opExtract) ∧ 32 ≤ s.capBits.toNat
      ∧ s.ci = s.capBits ∧ s.count.toNat = (s.capBits.toNat - 32) / 8
      ∧ s.capBits.toNat - 32 < 8 * s.leff.toNat ∧ (s.op = Config.opExtract → s.hdrLen = s.leff)
  | .undersizedCarrier =>
    (s.op = Config.opHdrenc ∨ s.op = Config.opHdrdec ∨ s.op = Config.opPack ∨ s.op = Config.opUnpack
      ∨ s.op = Config.opEmbed ∨ s.op = Config.opExtract) ∧ s.capBits.toNat < 32 ∧ Cleared s
  | .illegalCommand => True
  | .notAnImage => False
  | .unsupportedBitDepth => False
  | .payloadSourceUnavailable => False

/-- What holds in each controller state. -/
def PhaseInv (s : State) : Prop :=
  match s.phase with
  | .idle => s.op = 0 ∧ s.result = .ok ∧ s.cmdErr = false ∧ s.capBits = 0 ∧ Cleared s
  | .readCapacity => (s.op = Config.opCap ∨ s.op = Config.opEmbed) ∧ Cleared s
  | .awaitPayloadSize => s.op = Config.opEmbed ∧ 32 ≤ s.capBits.toNat ∧ Cleared s
  | .confirmTruncation =>
    s.op = Config.opEmbed ∧ 32 ≤ s.capBits.toNat ∧ s.capBytes.toNat < s.plen.toNat
      ∧ s.overage.toNat = s.plen.toNat - s.capBytes.toNat
      ∧ s.ci = 0 ∧ s.count = 0 ∧ s.hdrLen = 0 ∧ s.leff = 0 ∧ s.acc = 0 ∧ s.bitpos = 0
  | .writeHeader =>
    (s.op = Config.opHdrenc ∨ s.op = Config.opEmbed) ∧ 32 ≤ s.capBits.toNat ∧ s.ci.toNat ≤ 32
      ∧ s.count = 0 ∧ s.hdrLen = 0 ∧ s.acc = 0 ∧ s.bitpos = 0
      ∧ (s.op = Config.opHdrenc → s.leff = s.plen) ∧ (s.op = Config.opEmbed → EmbedLength s)
  | .writePayload =>
    (s.op = Config.opPack ∨ s.op = Config.opEmbed) ∧ PayloadProgress s ∧ s.count = 0 ∧ s.hdrLen = 0
      ∧ (s.op = Config.opPack → s.leff = s.plen) ∧ (s.op = Config.opEmbed → EmbedLength s)
  | .readHeader =>
    (s.op = Config.opHdrdec ∨ s.op = Config.opExtract) ∧ 32 ≤ s.capBits.toNat ∧ s.ci.toNat ≤ 32
      ∧ s.hdrLen.toNat < 2 ^ s.ci.toNat ∧ s.count = 0 ∧ s.leff = 0 ∧ s.acc = 0 ∧ s.bitpos = 0
  | .readPayload =>
    (s.op = Config.opUnpack ∨ s.op = Config.opExtract) ∧ PayloadProgress s
      ∧ s.acc.toNat < 2 ^ s.bitpos.toNat ∧ s.count.toNat = (s.ci.toNat - 32) / 8
      ∧ (s.op = Config.opUnpack → s.leff = s.plen) ∧ (s.op = Config.opExtract → s.leff = s.hdrLen)
  | .done => Ended s

/-- The invariant of every reachable state. -/
structure Inv (s : State) : Prop where
  /-- Carrier memory has its canonical form. -/
  mem_wf : Memory.wf s.mem
  /-- CAP_BITS fits its register with room (R30). -/
  cap_max : s.capBits.toNat ≤ 3 * (2 ^ 32 - 1) ^ 2
  /-- CAP_BYTES is CAP_BITS div 8 (R73). -/
  cap_bytes : s.capBytes.toNat = s.capBits.toNat / 8
  /-- R30. -/
  ci_le : s.ci.toNat ≤ max s.capBits.toNat 32
  /-- R30. -/
  count_le : s.count.toNat ≤ s.leff.toNat
  /-- While an operation runs RESULT is 0 (R25) and CAP_BITS is that of WIDTH and HEIGHT (R29). -/
  busy_clean : busy s = true →
    s.result = .ok ∧ s.capBits.toNat = 3 * s.width.toNat * s.height.toNat
  /-- What holds in each controller state. -/
  phase_inv : PhaseInv s

/-- The block just after reset, beside any carrier memory in canonical form, any streams and any plan of
the host (70_reset_and_hazards.md R138, R139). -/
def Booted (s : State) : Prop :=
  Memory.wf s.mem ∧ s = resetBlock s

/-- The states that some run from reset goes through, whatever the host does. -/
inductive Reachable : State → Prop where
  | boot (s : State) : Booted s → Reachable s
  | step (s t : State) : Reachable s → step s = .next t → Reachable t

/-- The host's next access, if it has one, is an access to carrier memory. -/
def hostTouchesCarriers (s : State) : Bool :=
  match s.port with
  | .putCarrier _ _ :: _ => true
  | .getCarrier _ :: _ => true
  | _ => false

/-- The host's next access, if it has one, writes carrier memory. -/
def hostWritesCarriers (s : State) : Bool :=
  match s.port with
  | .putCarrier _ _ :: _ => true
  | _ => false

end Sys2Proof.Machine
end

