-- ==== Sys2Proof/Certificates/Slice0/Obligations.lean ====
section
/-! DEFINITION. The statements about the model, one definition each. In all of them "the host writes `c` to
CMD next" is `s.port = .write Config.regCmd c :: rest`, and "the host does nothing" is `s.port = []`. -/

open Sys2Proof Sys2Proof.Machine

/-! ## Command words -/

/-- The nine words of spec/opcode_table.json decode to their commands. -/
def Obligations.TableWordsDecode : Prop :=
  decode 0x00000001 = .ok .cap ∧ decode 0x00000002 = .ok .hdrenc ∧ decode 0x00000003 = .ok .hdrdec ∧
  decode 0x00000004 = .ok .pack ∧ decode 0x00000005 = .ok .unpack ∧ decode 0x00000006 = .ok .embed ∧
  decode 0x00000007 = .ok .extract ∧ decode 0x00000008 = .ok .confirmNo ∧ decode 0x00000018 = .ok .confirmYes

/-- R57: which of the 2^32 words are legal, by their fields and as a list, and the two CONFIRM words. -/
def Obligations.LegalWordsAreExactlyThese : Prop :=
  ∀ c : CmdWord,
    ((∃ i, decode c = .ok i) ↔
      (1 ≤ (c.extractLsb' 0 4).toNat ∧ (c.extractLsb' 0 4).toNat ≤ 7 ∧ c.extractLsb' 4 28 = 0) ∨
      (c.extractLsb' 0 4 = 8 ∧ c.extractLsb' 5 27 = 0)) ∧
    ((∃ i, decode c = .ok i) ↔
      c.toNat = 1 ∨ c.toNat = 2 ∨ c.toNat = 3 ∨ c.toNat = 4 ∨ c.toNat = 5 ∨ c.toNat = 6 ∨ c.toNat = 7 ∨
      c.toNat = 8 ∨ c.toNat = 0x18) ∧
    (decode c = .ok .confirmNo ↔ c.toNat = 8) ∧ (decode c = .ok .confirmYes ↔ c.toNat = 0x18)

/-- Decoder and encoder are inverse: every command is well-formed and is read back from its word, and no
other word decodes to it. -/
def Obligations.DecodeAndEncodeAgree : Prop :=
  (∀ i : Instr, i.wf = true ∧ decode (encode i) = .ok i) ∧
  ∀ (c : CmdWord) (i : Instr), decode c = .ok i → c = encode i

/-- A step runs the decoded command: when the host writes a legal word to CMD next, the step is that
command's meaning, with the write taken off the port; `withFetchWord` places exactly such a write. -/
def Obligations.StepRunsTheDecodedCommand : Prop :=
  (∀ (s : State) (rest : List HostOp) (c : CmdWord) (i : Instr),
    s.port = .write Config.regCmd c :: rest → decode c = .ok i → step s = exec i { s with port := rest }) ∧
  ∀ (s : State) (i : Instr), step (s.withFetchWord 32 (encode i).toNat) = exec i s

/-- R61, with its example: an illegal word, or CONFIRM, written in IDLE or DONE. -/
def Obligations.IllegalCommandWhenNotBusy : Prop :=
  ∀ (s : State) (rest : List HostOp) (c : CmdWord),
    s.port = .write Config.regCmd c :: rest → (s.phase = .idle ∨ s.phase = .done) →
    ((∀ i, decode c ≠ .ok i) ∨ c = 0x00000008 ∨ c = 0x00000018) →
    ∃ t, step s = .next t ∧
      t = { s with
        port := rest, op := c.extractLsb' 0 4, cmdErr := false, result := .illegalCommand, phase := .done } ∧
      (c = 0x00000009 → statusWord t = 0x00090408)

/-- R64: a word written to CMD while an operation runs. -/
def Obligations.CommandWhileBusy : Prop :=
  ∀ (s : State) (rest : List HostOp) (c : CmdWord),
    s.port = .write Config.regCmd c :: rest → s.phase ≠ .idle → s.phase ≠ .done →
    (s.phase = .confirmTruncation → c = 0x00000008 → step s = exec .confirmNo { s with port := rest }) ∧
    (s.phase = .confirmTruncation → c = 0x00000018 → step s = exec .confirmYes { s with port := rest }) ∧
    ((s.phase ≠ .confirmTruncation ∨ (c ≠ 0x00000008 ∧ c ≠ 0x00000018)) →
      step s = .next { s with port := rest, cmdErr := true })

/-- R66: whatever the word and whatever the state, a write to CMD has a next state. -/
def Obligations.EveryCommandWordHasANextState : Prop :=
  ∀ (s : State) (rest : List HostOp) (c : CmdWord),
    s.port = .write Config.regCmd c :: rest → ∃ t, step s = .next t

/-- R26, "It never changes the running operation": with CMD_ERR set, the block's own step does the same and
leaves CMD_ERR set. -/
def Obligations.CommandErrorNeverSteers : Prop :=
  ∀ s t : State, blockStep s = .next t →
    blockStep { s with cmdErr := true } = .next { t with cmdErr := true }

/-! ## Taking a command -/

/-- R62 and R63: what taking each of the seven commands leaves when the block is not busy. `StartsAs` says
that `exec` answers a next state, that R62 has been done in it and everything else is as before, and
which RESULT, STATE, LEFF and CI R63 leaves. -/
def Obligations.TakingALegalCommand : Prop :=
  ∀ s : State, (s.phase = .idle ∨ s.phase = .done) →
    StartsAs .cap Config.opCap s .ok .readCapacity 0 0 ∧
    StartsAs .embed Config.opEmbed s .ok .readCapacity 0 0 ∧
    (32 ≤ 3 * s.width.toNat * s.height.toNat →
      StartsAs .hdrenc Config.opHdrenc s .ok .writeHeader s.plen 0 ∧
      StartsAs .hdrdec Config.opHdrdec s .ok .readHeader 0 0 ∧
      StartsAs .pack Config.opPack s .ok .writePayload s.plen 32 ∧
      StartsAs .unpack Config.opUnpack s .ok .readPayload s.plen 32 ∧
      StartsAs .extract Config.opExtract s .ok .readHeader 0 0) ∧
    (3 * s.width.toNat * s.height.toNat < 32 →
      StartsAs .hdrenc Config.opHdrenc s .undersizedCarrier .done 0 0 ∧
      StartsAs .hdrdec Config.opHdrdec s .undersizedCarrier .done 0 0 ∧
      StartsAs .pack Config.opPack s .undersizedCarrier .done 0 0 ∧
      StartsAs .unpack Config.opUnpack s .undersizedCarrier .done 0 0 ∧
      StartsAs .extract Config.opExtract s .undersizedCarrier .done 0 0)

/-- The two answers of R110 while the truncation question is open: "no" ends EMBED, "yes" clamps the length to
CAP_BYTES, and neither changes anything else. PLEN exceeds CAP_BYTES in every such state that a run
reaches (`StepKeepsTheInvariant`). -/
def Obligations.ConfirmAnswersTheQuestion : Prop :=
  ∀ s : State, s.phase = .confirmTruncation → s.capBytes.toNat < s.plen.toNat →
    exec .confirmNo s =
      .next { s with count := 0, result := .capacityExceededDeclined, phase := .done } ∧
    ∃ t, exec .confirmYes s = .next t ∧ t.leff.toNat = s.capBytes.toNat ∧
      t = { s with leff := t.leff, phase := .writeHeader }

/-! ## The block's own steps -/

/-- R76 and R105: READ_CAPACITY under CAP and under EMBED. -/
def Obligations.ReadCapacityStep : Prop :=
  ∀ s : State, s.port = [] → s.phase = .readCapacity →
    (s.op = Config.opCap → step s = .next { s with phase := .done }) ∧
    (s.op = Config.opEmbed → s.capBits.toNat < 32 →
      step s = .next { s with result := .undersizedCarrier, phase := .done }) ∧
    (s.op = Config.opEmbed → 32 ≤ s.capBits.toNat → step s = .next { s with phase := .awaitPayloadSize })

/-- R106: AWAIT_PAYLOAD_SIZE, a strict comparison with CAP_BYTES. -/
def Obligations.AwaitPayloadSizeStep : Prop :=
  ∀ s : State, s.port = [] → s.phase = .awaitPayloadSize →
    (s.capBytes.toNat < s.plen.toNat → ∃ t, step s = .next t ∧
      t.overage.toNat = s.plen.toNat - s.capBytes.toNat ∧ 1 ≤ t.overage.toNat ∧
      t = { s with overage := t.overage, phase := .confirmTruncation }) ∧
    (s.plen.toNat ≤ s.capBytes.toNat → step s = .next { s with leff := s.plen, phase := .writeHeader })

/-- The waiting states take no step of their own: IDLE, DONE and CONFIRM_TRUNCATION stay as they are until the
host does something (R65, R107, R136). That a wait is a step to the same state is the model's
choice (log entry 2). -/
def Obligations.WaitingStatesStay : Prop :=
  ∀ s : State, s.port = [] → (s.phase = .idle ∨ s.phase = .done ∨ s.phase = .confirmTruncation) →
    ∀ k, run k s = .next s

/-- R80: the WRITE_HEADER step.
That the branch not of HDRENC is taken under every other OP is the model's reading (log entry 20). -/
def Obligations.WriteHeaderStep : Prop :=
  ∀ s : State, s.port = [] → s.phase = .writeHeader → Memory.wf s.mem → 32 ≤ s.capBits.toNat →
    (s.ci.toNat = 32 → s.op = Config.opHdrenc → step s = .next { s with phase := .done }) ∧
    (s.ci.toNat = 32 → s.op ≠ Config.opHdrenc → step s = .next { s with phase := .writePayload }) ∧
    (s.ci.toNat < 32 → ∃ t, step s = .next t ∧ t.ci.toNat = s.ci.toNat + 1 ∧
      (∀ a, Memory.read t.mem a =
        if a = s.ci.toNat then setLsb (Memory.read s.mem a) (s.leff.getLsbD a) else Memory.read s.mem a) ∧
      t = { s with ci := t.ci, mem := t.mem })

/-- R84: the READ_HEADER step.
That the branch not of HDRDEC is taken under every other OP is the model's reading (log entry 20). -/
def Obligations.ReadHeaderStep : Prop :=
  ∀ s : State, s.port = [] → s.phase = .readHeader → 32 ≤ s.capBits.toNat →
    (s.ci.toNat = 32 → s.op = Config.opHdrdec → step s = .next { s with phase := .done }) ∧
    (s.ci.toNat = 32 → s.op ≠ Config.opHdrdec →
      step s = .next { s with leff := s.hdrLen, phase := .readPayload }) ∧
    (s.ci.toNat < 32 → ∃ t, step s = .next t ∧ t.ci.toNat = s.ci.toNat + 1 ∧
      (∀ i, t.hdrLen.getLsbD i =
        (s.hdrLen.getLsbD i || (decide (i = s.ci.toNat) && (Memory.read s.mem i).getLsbD 0))) ∧
      t = { s with ci := t.ci, hdrLen := t.hdrLen })

/-- R89: the WRITE_PAYLOAD step: the end of the phase, the held step, a bit of a new byte of the source, and a
bit of the byte in ACC.
That a held step answers the same state is the model's choice (log entry 2). -/
def Obligations.WritePayloadStep : Prop :=
  ∀ s : State, s.port = [] → s.phase = .writePayload → Memory.wf s.mem → 32 ≤ s.ci.toNat →
    ((s.ci.toNat - 32 = 8 * s.leff.toNat ∨ s.capBits.toNat ≤ s.ci.toNat) →
      step s = .next { s with count := s.leff, phase := .done }) ∧
    (s.ci.toNat - 32 ≠ 8 * s.leff.toNat → s.ci.toNat < s.capBits.toNat →
      (s.bitpos = 0 → s.src = [] → step s = .next s) ∧
      (∀ b rest, s.bitpos = 0 → s.src = b :: rest → ∃ t, step s = .next t ∧
        t.ci.toNat = s.ci.toNat + 1 ∧ t.bitpos = 1 ∧
        (∀ a, Memory.read t.mem a =
          if a = s.ci.toNat then setLsb (Memory.read s.mem a) (b.getLsbD 0) else Memory.read s.mem a) ∧
        t = { s with ci := t.ci, bitpos := t.bitpos, mem := t.mem, acc := b, src := rest }) ∧
      (s.bitpos ≠ 0 → ∃ t, step s = .next t ∧
        t.ci.toNat = s.ci.toNat + 1 ∧ t.bitpos.toNat = (s.bitpos.toNat + 1) % 8 ∧
        (∀ a, Memory.read t.mem a =
          if a = s.ci.toNat then setLsb (Memory.read s.mem a) (s.acc.getLsbD s.bitpos.toNat)
          else Memory.read s.mem a) ∧
        t = { s with ci := t.ci, bitpos := t.bitpos, mem := t.mem }))

/-- R97: the READ_PAYLOAD step: completion, exhaustion, a bit kept in ACC, a completed byte given to the sink,
and the held step.
That a held step answers the same state, and the sink's readiness as a level, are the model's choices (log
entries 2 and 8); COUNT + 1 is taken in 32 bits, which shows in unreachable states only (log entry 7). -/
def Obligations.ReadPayloadStep : Prop :=
  ∀ s : State, s.port = [] → s.phase = .readPayload → 32 ≤ s.ci.toNat →
    (s.ci.toNat - 32 = 8 * s.leff.toNat → step s = .next { s with phase := .done }) ∧
    (s.ci.toNat - 32 ≠ 8 * s.leff.toNat → s.capBits.toNat ≤ s.ci.toNat →
      step s = .next { s with result := .incompleteExtraction, phase := .done }) ∧
    (s.ci.toNat - 32 ≠ 8 * s.leff.toNat → s.ci.toNat < s.capBits.toNat →
      ∃ a : Byte,
        (∀ i, a.getLsbD i = (s.acc.getLsbD i ||
          (decide (i = s.bitpos.toNat) && (Memory.read s.mem s.ci.toNat).getLsbD 0))) ∧
        (s.bitpos ≠ 7 → ∃ t, step s = .next t ∧
          t.ci.toNat = s.ci.toNat + 1 ∧ t.bitpos.toNat = s.bitpos.toNat + 1 ∧ t.acc = a ∧
          t = { s with ci := t.ci, bitpos := t.bitpos, acc := a }) ∧
        (s.bitpos = 7 → s.sinkReady = true → ∃ t, step s = .next t ∧
          t.ci.toNat = s.ci.toNat + 1 ∧ t.bitpos = 0 ∧ t.count = s.count + 1 ∧ t.sink = s.sink ++ [a] ∧
          t = { s with ci := t.ci, bitpos := 0, acc := 0, count := t.count, sink := t.sink }) ∧
        (s.bitpos = 7 → s.sinkReady = false → step s = .next s))

/-! ## The register port, STATUS and reset -/

/-- R18, R20, R32 and the map of R19: what a host read of each register returns, and that it changes nothing
but the host's own record of what it has seen. -/
def Obligations.RegisterReads : Prop :=
  ∀ (s : State) (rest : List HostOp) (n : RegNum), s.port = .read n :: rest →
    ∃ v : CarrierWord,
      step s = .next { s with port := rest, seen := s.seen ++ [.reg n v] } ∧
      (n.toNat = 0 → v.toNat = 0) ∧
      (n.toNat = 1 → v.toNat = (statusWord s).toNat) ∧
      (n.toNat = 2 → v.toNat = s.width.toNat) ∧
      (n.toNat = 3 → v.toNat = s.height.toNat) ∧
      (n.toNat = 4 → v.toNat = s.plen.toNat) ∧
      (n.toNat = 5 → v.toNat = s.capBits.toNat) ∧
      (n.toNat = 6 → v.toNat = s.capBytes.toNat) ∧
      (n.toNat = 7 → v.toNat = s.leff.toNat) ∧
      (n.toNat = 8 → v.toNat = s.hdrLen.toNat) ∧
      (n.toNat = 9 → v.toNat = s.count.toNat) ∧
      (n.toNat = 10 → v.toNat = s.ci.toNat) ∧
      (n.toNat = 11 → v.toNat = s.overage.toNat) ∧
      (12 ≤ n.toNat → v.toNat = 0)

/-- R21 to R24: the fields of the STATUS word, the STATE codes and the RESULT codes (R121), that STATUS is 0 after
reset, and that writing STATUS does nothing. -/
def Obligations.StatusFields : Prop :=
  (∀ s : State,
    (statusWord s).extractLsb' 0 4 = s.phase.code ∧
    ((statusWord s).getLsbD 4 = true ↔ s.phase ≠ .idle ∧ s.phase ≠ .done) ∧
    ((statusWord s).getLsbD 5 = true ↔ s.phase = .confirmTruncation) ∧
    (statusWord s).extractLsb' 6 2 = 0 ∧
    (statusWord s).extractLsb' 8 4 = s.result.code ∧
    (statusWord s).getLsbD 12 = s.cmdErr ∧
    (statusWord s).extractLsb' 13 3 = 0 ∧
    (statusWord s).extractLsb' 16 4 = s.op ∧
    (statusWord s).extractLsb' 20 12 = 0) ∧
  (Phase.idle.code = 0 ∧ Phase.readCapacity.code = 1 ∧ Phase.awaitPayloadSize.code = 2 ∧
    Phase.confirmTruncation.code = 3 ∧ Phase.writeHeader.code = 4 ∧ Phase.writePayload.code = 5 ∧
    Phase.readHeader.code = 6 ∧ Phase.readPayload.code = 7 ∧ Phase.done.code = 8) ∧
  (Result.ok.code = 0 ∧ Result.capacityExceededDeclined.code = 1 ∧ Result.incompleteExtraction.code = 2 ∧
    Result.undersizedCarrier.code = 3 ∧ Result.illegalCommand.code = 4 ∧ Result.notAnImage.code = 5 ∧
    Result.unsupportedBitDepth.code = 6 ∧ Result.payloadSourceUnavailable.code = 7) ∧
  statusWord State.reset = 0 ∧
  (∀ (s : State) (rest : List HostOp) (v : CmdWord), s.port = .write Config.regStatus v :: rest →
    step s = .next { s with port := rest })

/-- R28 and R29: a write of WIDTH, HEIGHT or PLEN takes effect when not busy; while busy it only sets CMD_ERR,
and nothing but reset changes the three registers during an operation. -/
def Obligations.ConfigurationWrites : Prop :=
  (∀ (s : State) (rest : List HostOp) (n : RegNum) (v : CmdWord), s.port = .write n v :: rest →
    (busy s = false →
      (n.toNat = 2 → step s = .next { s with port := rest, width := v }) ∧
      (n.toNat = 3 → step s = .next { s with port := rest, height := v }) ∧
      (n.toNat = 4 → step s = .next { s with port := rest, plen := v })) ∧
    (busy s = true → (n.toNat = 2 ∨ n.toNat = 3 ∨ n.toNat = 4) →
      step s = .next { s with port := rest, cmdErr := true })) ∧
  (∀ s t : State, busy s = true → (∀ rest, s.port ≠ .reset :: rest) → step s = .next t → SameConfig s t)

/-- R21, R30 and R32: host writes of STATUS, of an output register and of a reserved register are ignored,
busy or not, and do not set CMD_ERR. -/
def Obligations.OtherRegisterWritesAreIgnored : Prop :=
  ∀ (s : State) (rest : List HostOp) (n : RegNum) (v : CmdWord), s.port = .write n v :: rest →
    (n.toNat = 1 ∨ 5 ≤ n.toNat) → step s = .next { s with port := rest }

/-- No cancellation (R60): while an operation runs, a host access that is neither a reset, nor the host
standing by, nor an answer to the open question leaves every register of the block but CMD_ERR as it
is, and carrier memory and the sink too. -/
def Obligations.NoCancellation : Prop :=
  ∀ (s t : State) (e : HostOp) (rest : List HostOp), s.port = e :: rest → busy s = true →
    e ≠ .reset → e ≠ .idle → e ≠ .wait →
    (s.phase = .confirmTruncation →
      (∀ b, e ≠ .answer b) ∧ e ≠ .write Config.regCmd 0x00000008 ∧ e ≠ .write Config.regCmd 0x00000018) →
    step s = .next t →
    t = { s with
      port := rest, cmdErr := t.cmdErr, src := t.src, sinkReady := t.sinkReady, seen := t.seen } ∧
    (s.cmdErr = true → t.cmdErr = true)

/-- R26: what sets CMD_ERR and what clears it. -/
def Obligations.CommandErrorIsSticky : Prop :=
  ∀ s t : State, step s = .next t →
    (s.cmdErr = false → t.cmdErr = true →
      busy s = true ∧ ∃ n v rest, s.port = .write n v :: rest ∧
        (n.toNat = 0 ∨ n.toNat = 2 ∨ n.toNat = 3 ∨ n.toNat = 4)) ∧
    (s.cmdErr = true → t.cmdErr = false →
      (∃ rest, s.port = .reset :: rest) ∨
      (busy s = false ∧ ∃ c rest, s.port = .write Config.regCmd c :: rest))

/-- R27: STATUS.OP is bits 3:0 of the last word taken, legal or not, and changes at no other time but reset. -/
def Obligations.OpIsTheLastCommandTaken : Prop :=
  (∀ s t : State, step s = .next t → ∀ c rest, s.port = .write Config.regCmd c :: rest → busy s = false →
    t.op = c.extractLsb' 0 4) ∧
  (∀ s t : State, step s = .next t → (∀ rest, s.port ≠ .reset :: rest) →
    (busy s = true ∨ ∀ c rest, s.port ≠ .write Config.regCmd c :: rest) → t.op = s.op) ∧
  State.reset.op = 0

/-- R137 to R139: reset from any state puts every piece of the block's own state to its reset value and leaves
carrier memory and the streams alone. That the host's plan, its transcript and the sink's readiness stay as they
are too is the model's reading (log entry 17). -/
def Obligations.ResetClearsTheBlockAlone : Prop :=
  ∀ (s : State) (rest : List HostOp), s.port = .reset :: rest →
    ∃ t, step s = .next t ∧ t.phase = .idle ∧ t.result = .ok ∧ t.cmdErr = false ∧ t.op = 0 ∧
      t.width = 0 ∧ t.height = 0 ∧ t.plen = 0 ∧ t.capBits = 0 ∧ t.capBytes = 0 ∧ t.leff = 0 ∧
      t.hdrLen = 0 ∧ t.count = 0 ∧ t.ci = 0 ∧ t.overage = 0 ∧ t.acc = 0 ∧ t.bitpos = 0 ∧
      statusWord t = 0 ∧ (∀ n, readReg n t = 0) ∧ SameOutside { s with port := rest } t

/-- The state after reset meets the invariant, and every register of it reads 0 (R138). -/
def Obligations.ResetStateMeetsTheInvariant : Prop :=
  Inv State.reset ∧ Booted State.reset ∧ ∀ n, readReg n State.reset = 0

/-! ## Invariants and whole-machine rules -/

/-- Every step keeps the invariant: the canonical form of carrier memory, the bounds of R30, BITPOS in step
with CI (R34), and what holds in each controller state. -/
def Obligations.StepKeepsTheInvariant : Prop :=
  ∀ s t : State, Inv s → step s = .next t → Inv t

/-- In a state that meets the invariant the machine always has a next state, unless the host touches carrier
memory while the block owns it (R145, U4): none of the four faults happens (R39, U8). -/
def Obligations.InvariantStatesAlwaysStep : Prop :=
  ∀ s : State, Inv s → (hostTouchesCarriers s = false ∨ busy s = false) → ∃ t, step s = .next t

/-- R34, of every reachable state. -/
def Obligations.BitPositionFollowsCarrierIndex : Prop :=
  ∀ s : State, Reachable s →
    ((s.phase = .writePayload ∨ s.phase = .readPayload) → s.bitpos.toNat = (s.ci.toNat - 32) % 8) ∧
    (s.phase = .readPayload → ∀ i, s.bitpos.toNat ≤ i → s.acc.getLsbD i = false)

/-- The bounds R30 gives for the output registers, of every reachable state. -/
def Obligations.OutputRegistersStayInBounds : Prop :=
  ∀ s : State, Reachable s →
    s.capBits.toNat ≤ 3 * (2 ^ 32 - 1) ^ 2 ∧ s.capBits.toNat < 2 ^ 66 ∧
    s.capBytes.toNat = s.capBits.toNat / 8 ∧
    s.ci.toNat ≤ max s.capBits.toNat 32 ∧
    s.count.toNat ≤ s.leff.toNat ∧
    (s.phase = .confirmTruncation →
      s.overage.toNat = s.plen.toNat - s.capBytes.toNat ∧ 0 < s.overage.toNat)

/-- R86, and R42 for the payload phases: no reachable state is in a phase that touches carriers with fewer
than 32 of them. -/
def Obligations.CarrierPhasesHaveAFullHeader : Prop :=
  ∀ s : State, Reachable s →
    (s.phase = .writeHeader ∨ s.phase = .readHeader ∨ s.phase = .writePayload ∨ s.phase = .readPayload) →
    32 ≤ s.capBits.toNat

/-- R122 and R121: the results each command can end with, in every reachable state, and that codes 5 to 7 are
never written. -/
def Obligations.ResultsOfEachCommand : Prop :=
  ∀ s : State, Reachable s →
    (s.phase ≠ .done → s.result = .ok) ∧
    s.result ≠ .notAnImage ∧ s.result ≠ .unsupportedBitDepth ∧ s.result ≠ .payloadSourceUnavailable ∧
    (s.phase = .done → s.result ≠ .illegalCommand →
      (s.op = Config.opCap ∧ s.result = .ok) ∨
      ((s.op = Config.opHdrenc ∨ s.op = Config.opHdrdec ∨ s.op = Config.opPack) ∧
        (s.result = .ok ∨ s.result = .undersizedCarrier)) ∨
      ((s.op = Config.opUnpack ∨ s.op = Config.opExtract) ∧
        (s.result = .ok ∨ s.result = .incompleteExtraction ∨ s.result = .undersizedCarrier)) ∨
      (s.op = Config.opEmbed ∧
        (s.result = .ok ∨ s.result = .capacityExceededDeclined ∨ s.result = .undersizedCarrier)))

/-- What each error leaves in the output registers, in every reachable state (R124). -/
def Obligations.RegistersAfterAnError : Prop :=
  ∀ s : State, Reachable s →
    (s.result = .capacityExceededDeclined →
      s.phase = .done ∧ s.count = 0 ∧ s.leff = 0 ∧ s.ci = 0 ∧ 0 < s.overage.toNat) ∧
    (s.result = .incompleteExtraction →
      s.phase = .done ∧ s.ci = s.capBits ∧ s.count.toNat = (s.capBits.toNat - 32) / 8 ∧
      s.capBits.toNat < 32 + 8 * s.leff.toNat ∧ (s.op = Config.opExtract → s.hdrLen = s.leff)) ∧
    (s.result = .undersizedCarrier →
      s.phase = .done ∧ s.capBits.toNat < 32 ∧ s.capBytes.toNat < 4 ∧
      s.count = 0 ∧ s.ci = 0 ∧ s.leff = 0 ∧ s.hdrLen = 0 ∧ s.overage = 0)

/-- R40 over all steps: a step that is not the host placing a carrier byte changes at most the carrier at CI,
and in it exactly bit 0. -/
def Obligations.AStepChangesAtMostOneCarrierBit : Prop :=
  ∀ s t : State, Memory.wf s.mem → hostWritesCarriers s = false → step s = .next t →
    ∀ a, Memory.read t.mem a = Memory.read s.mem a ∨
      (a = s.ci.toNat ∧ ∀ i, (Memory.read t.mem a).getLsbD i ≠ (Memory.read s.mem a).getLsbD i ↔ i = 0)

/-- R43 over all steps: which carriers which command may change. -/
def Obligations.WhichCommandsWriteWhichCarriers : Prop :=
  ∀ s t : State, Inv s → hostWritesCarriers s = false → step s = .next t →
    ∀ a, Memory.read t.mem a ≠ Memory.read s.mem a →
      (s.phase = .writeHeader ∧ (s.op = Config.opHdrenc ∨ s.op = Config.opEmbed) ∧ a < 32) ∨
      (s.phase = .writePayload ∧ (s.op = Config.opPack ∨ s.op = Config.opEmbed) ∧
        32 ≤ a ∧ a < min (32 + 8 * s.leff.toNat) s.capBits.toNat)

/-- The streams move only where R48 and R49 say: a byte leaves the source only as the first bit of it is packed,
and a byte reaches the sink only as its eighth bit is read. A byte the host offers goes to the end of the
source, and a change of the sink's readiness changes that alone; that nothing else moves the source or the
readiness is the model's choice of the host's operations (log entries 8 and 21). -/
def Obligations.StreamsMoveOnlyInPayloadPhases : Prop :=
  (∀ s t : State, step s = .next t → (∀ b rest, s.port ≠ .offer b :: rest) →
    (t.src = s.src ∨
      (s.phase = .writePayload ∧ s.bitpos = 0 ∧ s.src = t.acc :: t.src ∧ t.bitpos = 1)) ∧
    (t.sink = s.sink ∨
      (s.phase = .readPayload ∧ s.bitpos = 7 ∧ s.sinkReady = true ∧ t.bitpos = 0 ∧ t.acc = 0 ∧
        t.count = s.count + 1 ∧ ∃ b, t.sink = s.sink ++ [b]))) ∧
  (∀ (s : State) (b : Byte) (rest : List HostOp), s.port = .offer b :: rest →
    step s = .next { s with port := rest, src := s.src ++ [b] }) ∧
  (∀ (s : State) (ready : Bool) (rest : List HostOp), s.port = .setSinkReady ready :: rest →
    step s = .next { s with port := rest, sinkReady := ready }) ∧
  (∀ s t : State, step s = .next t → (∀ ready rest, s.port ≠ .setSinkReady ready :: rest) →
    t.sinkReady = s.sinkReady)

/-- The arcs between controller states, and no others (R22, R63, R65, R110; 91_not_in_source.md N1): the
source's two state lists, taking a command from IDLE or DONE, and reset. -/
def Obligations.ControllerArcs : Prop :=
  ∀ s t : State, step s = .next t → (∀ rest, s.port ≠ .reset :: rest) → t.phase ≠ s.phase →
    match s.phase with
    | .idle | .done => t.phase ≠ .idle ∧ t.phase ≠ .awaitPayloadSize ∧ t.phase ≠ .confirmTruncation
    | .readCapacity => t.phase = .done ∨ (t.phase = .awaitPayloadSize ∧ s.op = Config.opEmbed)
    | .awaitPayloadSize => t.phase = .confirmTruncation ∨ t.phase = .writeHeader
    | .confirmTruncation => t.phase = .writeHeader ∨ t.phase = .done
    | .writeHeader =>
      s.ci.toNat = 32 ∧ ((t.phase = .done ∧ s.op = Config.opHdrenc) ∨
        (t.phase = .writePayload ∧ s.op ≠ Config.opHdrenc))
    | .readHeader =>
      s.ci.toNat = 32 ∧ ((t.phase = .done ∧ s.op = Config.opHdrdec) ∨
        (t.phase = .readPayload ∧ s.op ≠ Config.opHdrdec))
    | .writePayload => t.phase = .done ∧ t.result = s.result
    | .readPayload => t.phase = .done ∧ (t.result = s.result ∨ t.result = .incompleteExtraction)

/-! ## Whole operations -/

/-- R75 and R76: CAP from IDLE or DONE, in its two steps, with the corner cases and the example of R75. -/
def Obligations.CapOperation : Prop :=
  ∀ s : State, s.port = [.write Config.regCmd 0x00000001] → (s.phase = .idle ∨ s.phase = .done) →
    ∃ t, run 2 s = .next t ∧ t.phase = .done ∧ t.result = .ok ∧ TakenAs Config.opCap { s with port := [] } t ∧
      t.leff = 0 ∧ t.ci = 0 ∧ statusWord t = 0x00010008 ∧
      ((s.width = 0 ∨ s.height = 0) → t.capBits = 0 ∧ t.capBytes = 0) ∧
      (s.width = 1 → s.height = 2 → t.capBits = 6 ∧ t.capBytes = 0) ∧
      (s.width = 10 → s.height = 10 → t.capBits = 300 ∧ t.capBytes = 37) ∧
      (s.width = 0xFFFFFFFF → s.height = 0xFFFFFFFF →
        t.capBits = 0x2FFFFFFFA00000003 ∧ t.capBytes = 0x5FFFFFFF40000000)

/-- HDRENC from IDLE or DONE, in its 34 steps: the header carriers hold PLEN in their bits 0, and no other
carrier and no stream changes (R78, R79). -/
def Obligations.HdrencOperation : Prop :=
  ∀ s : State, s.port = [.write Config.regCmd 0x00000002] → (s.phase = .idle ∨ s.phase = .done) →
    Memory.wf s.mem → 32 ≤ 3 * s.width.toNat * s.height.toNat →
    ∃ t, run 34 s = .next t ∧ t.phase = .done ∧ t.result = .ok ∧ t.op = Config.opHdrenc ∧ t.cmdErr = false ∧
      t.leff = s.plen ∧ t.ci.toNat = 32 ∧ t.count = 0 ∧ t.hdrLen = 0 ∧ t.overage = 0 ∧ SameConfig s t ∧
      (∀ a, Memory.read t.mem a =
        if a < 32 then setLsb (Memory.read s.mem a) (s.plen.getLsbD a) else Memory.read s.mem a) ∧
      t.src = s.src ∧ t.sink = s.sink

/-- HDRDEC from IDLE or DONE, in its 34 steps: bit i of HDR_LEN is bit 0 of carrier i, and carrier memory is
unchanged (R81, R83). -/
def Obligations.HdrdecOperation : Prop :=
  ∀ s : State, s.port = [.write Config.regCmd 0x00000003] → (s.phase = .idle ∨ s.phase = .done) →
    32 ≤ 3 * s.width.toNat * s.height.toNat →
    ∃ t, run 34 s = .next t ∧ t.phase = .done ∧ t.result = .ok ∧ t.op = Config.opHdrdec ∧ t.cmdErr = false ∧
      (∀ i, i < 32 → t.hdrLen.getLsbD i = (Memory.read s.mem i).getLsbD 0) ∧
      t.leff = 0 ∧ t.ci.toNat = 32 ∧ t.count = 0 ∧ t.overage = 0 ∧ SameConfig s t ∧
      SameOutside { s with port := [] } t

/-- R82: RUN HDRENC then RUN HDRDEC gives back every 32-bit value, whatever the carriers held, and the encoding
changes no bit other than bit 0 of carriers 0 to 31. (2·34 steps, and one more for each WAIT: log
entry 12.) -/
def Obligations.HeaderFidelity : Prop :=
  ∀ s : State, s.port = assemble [.run .hdrenc, .run .hdrdec] → (s.phase = .idle ∨ s.phase = .done) →
    Memory.wf s.mem → 32 ≤ 3 * s.width.toNat * s.height.toNat →
    ∃ t, run 70 s = .next t ∧ t.phase = .done ∧ t.result = .ok ∧ t.hdrLen = s.plen ∧
      ∀ a i, (32 ≤ a ∨ 0 < i) → (Memory.read t.mem a).getLsbD i = (Memory.read s.mem a).getLsbD i

/-- R90, R92 and R93: PACK from IDLE or DONE, with enough bytes in the source. `M` carriers are written in
`M + 2` steps. -/
def Obligations.PackOperation : Prop :=
  ∀ (s : State) (M : Nat), s.port = [.write Config.regCmd 0x00000004] → (s.phase = .idle ∨ s.phase = .done) →
    Memory.wf s.mem → 32 ≤ 3 * s.width.toNat * s.height.toNat →
    M = min (8 * s.plen.toNat) (3 * s.width.toNat * s.height.toNat - 32) → (M + 7) / 8 ≤ s.src.length →
    ∃ t, run (M + 2) s = .next t ∧ t.phase = .done ∧ t.result = .ok ∧ t.op = Config.opPack ∧
      t.leff = s.plen ∧ t.count = s.plen ∧ t.ci.toNat = 32 + M ∧ SameConfig s t ∧
      (∀ a, Memory.read t.mem a =
        if 32 ≤ a ∧ a < 32 + M then
          setLsb (Memory.read s.mem a) ((s.src.getD ((a - 32) / 8) 0).getLsbD ((a - 32) % 8))
        else Memory.read s.mem a) ∧
      t.src = s.src.drop ((M + 7) / 8) ∧ t.sink = s.sink

/-- R98, R99 and R100: UNPACK from IDLE or DONE, with a sink that takes every byte.
The sink's readiness as a level is the model's choice (log entry 8). -/
def Obligations.UnpackOperation : Prop :=
  ∀ (s : State) (M : Nat), s.port = [.write Config.regCmd 0x00000005] → (s.phase = .idle ∨ s.phase = .done) →
    s.sinkReady = true → 32 ≤ 3 * s.width.toNat * s.height.toNat →
    M = min (8 * s.plen.toNat) (3 * s.width.toNat * s.height.toNat - 32) →
    ∃ t out, run (M + 2) s = .next t ∧ t.phase = .done ∧ t.op = Config.opUnpack ∧
      t.result = (if 8 * s.plen.toNat ≤ 3 * s.width.toNat * s.height.toNat - 32 then .ok
        else .incompleteExtraction) ∧
      t.leff = s.plen ∧ t.ci.toNat = 32 + M ∧
      t.count.toNat = min s.plen.toNat ((3 * s.width.toNat * s.height.toNat - 32) / 8) ∧
      t.sink = s.sink ++ out ∧ out.length = t.count.toNat ∧
      (∀ j b, j < out.length → b < 8 →
        (out.getD j 0).getLsbD b = (Memory.read s.mem (32 + 8 * j + b)).getLsbD 0) ∧
      t.mem = s.mem ∧ t.src = s.src ∧ SameConfig s t

/-- R103: PACK of the PLEN bytes of the source; then, in any state with the carrier memory, the WIDTH, the HEIGHT and
the PLEN that PACK left, UNPACK gives the sink exactly those bytes, with RESULT = OK.
The sink's readiness as a level is the model's choice (log entry 8). -/
def Obligations.PackUnpackRoundTrip : Prop :=
  ∀ s : State, s.port = [.write Config.regCmd 0x00000004] → (s.phase = .idle ∨ s.phase = .done) →
    Memory.wf s.mem → 32 + 8 * s.plen.toNat ≤ 3 * s.width.toNat * s.height.toNat → s.plen.toNat ≤ s.src.length →
    ∃ t, run (8 * s.plen.toNat + 2) s = .next t ∧ t.phase = .done ∧ t.result = .ok ∧
      ∀ u : State, u.port = [.write Config.regCmd 0x00000005] → (u.phase = .idle ∨ u.phase = .done) →
        u.sinkReady = true → u.mem = t.mem → u.width = s.width → u.height = s.height → u.plen = s.plen →
        ∃ v, run (8 * s.plen.toNat + 2) u = .next v ∧ v.phase = .done ∧ v.result = .ok ∧
          v.sink = u.sink ++ s.src.take s.plen.toNat

/-- EMBED without a question (PLEN ≤ CAP_BYTES), from IDLE or DONE: the header carriers hold PLEN, the next `M`
carriers the first payload bits, the report is PLEN even when not all of them fit (R104, R111 to R114). -/
def Obligations.EmbedOperation : Prop :=
  ∀ (s : State) (M : Nat), s.port = [.write Config.regCmd 0x00000006] → (s.phase = .idle ∨ s.phase = .done) →
    Memory.wf s.mem → 32 ≤ 3 * s.width.toNat * s.height.toNat →
    s.plen.toNat ≤ 3 * s.width.toNat * s.height.toNat / 8 →
    M = min (8 * s.plen.toNat) (3 * s.width.toNat * s.height.toNat - 32) → (M + 7) / 8 ≤ s.src.length →
    ∃ t, run (M + 37) s = .next t ∧ t.phase = .done ∧ t.result = .ok ∧ t.op = Config.opEmbed ∧
      t.leff = s.plen ∧ t.count = s.plen ∧ t.ci.toNat = 32 + M ∧ t.overage = 0 ∧ SameConfig s t ∧
      (∀ a, Memory.read t.mem a =
        if a < 32 then setLsb (Memory.read s.mem a) (s.plen.getLsbD a)
        else if a < 32 + M then
          setLsb (Memory.read s.mem a) ((s.src.getD ((a - 32) / 8) 0).getLsbD ((a - 32) % 8))
        else Memory.read s.mem a) ∧
      t.src = s.src.drop ((M + 7) / 8) ∧ t.sink = s.sink

/-- EMBED that ends before WRITE_HEADER: the undersized image in two steps, and the declined question in four.
Carrier memory and the source are exactly as before (R105, R108, R110, R124). -/
def Obligations.EmbedThatWritesNothing : Prop :=
  (∀ s : State, s.port = [.write Config.regCmd 0x00000006] → (s.phase = .idle ∨ s.phase = .done) →
    3 * s.width.toNat * s.height.toNat < 32 →
    ∃ t, run 2 s = .next t ∧ t.phase = .done ∧ t.result = .undersizedCarrier ∧
      TakenAs Config.opEmbed { s with port := [] } t ∧ t.leff = 0 ∧ t.ci = 0) ∧
  (∀ s : State,
    s.port = [.write Config.regCmd 0x00000006, .idle, .idle, .write Config.regCmd 0x00000008] →
    (s.phase = .idle ∨ s.phase = .done) → 32 ≤ 3 * s.width.toNat * s.height.toNat →
    3 * s.width.toNat * s.height.toNat / 8 < s.plen.toNat →
    ∃ t, run 4 s = .next t ∧ t.phase = .done ∧ t.result = .capacityExceededDeclined ∧
      t.op = Config.opEmbed ∧ t.count = 0 ∧ t.leff = 0 ∧ t.ci = 0 ∧
      t.capBytes.toNat = 3 * s.width.toNat * s.height.toNat / 8 ∧
      t.overage.toNat = s.plen.toNat - 3 * s.width.toNat * s.height.toNat / 8 ∧
      SameConfig s t ∧ SameOutside { s with port := [] } t)

/-- EXTRACT from IDLE or DONE, with a sink that takes every byte: the header is trusted whatever it is, the
payload is read to its end or to the end of the carriers, and carrier memory is not written (R116 to
R120). PLEN is not read.
The sink's readiness as a level is the model's choice (log entry 8). -/
def Obligations.ExtractOperation : Prop :=
  ∀ (s : State) (L : Len) (M : Nat), s.port = [.write Config.regCmd 0x00000007] →
    (s.phase = .idle ∨ s.phase = .done) → s.sinkReady = true →
    32 ≤ 3 * s.width.toNat * s.height.toNat →
    (∀ i, i < 32 → L.getLsbD i = (Memory.read s.mem i).getLsbD 0) →
    M = min (8 * L.toNat) (3 * s.width.toNat * s.height.toNat - 32) →
    ∃ t out, run (M + 35) s = .next t ∧ t.phase = .done ∧ t.op = Config.opExtract ∧
      t.result = (if 32 + 8 * L.toNat ≤ 3 * s.width.toNat * s.height.toNat then .ok
        else .incompleteExtraction) ∧
      t.hdrLen = L ∧ t.leff = L ∧ t.ci.toNat = 32 + M ∧
      t.count.toNat = min L.toNat ((3 * s.width.toNat * s.height.toNat - 32) / 8) ∧
      t.sink = s.sink ++ out ∧ out.length = t.count.toNat ∧
      (∀ j b, j < out.length → b < 8 →
        (out.getD j 0).getLsbD b = (Memory.read s.mem (32 + 8 * j + b)).getLsbD 0) ∧
      t.mem = s.mem ∧ t.src = s.src ∧ SameConfig s t

/-- The round trip of R115: RUN EMBED then RUN EXTRACT gives the sink exactly the PLEN bytes of the source, for
every payload that fits after the header. The step counts take each WAIT as one step (log entry 12).
The sink's readiness as a level is the model's choice (log entry 8). -/
def Obligations.EmbedExtractRoundTrip : Prop :=
  ∀ s : State, s.port = assemble [.run .embed, .run .extract] → (s.phase = .idle ∨ s.phase = .done) →
    Memory.wf s.mem → s.sinkReady = true →
    32 + 8 * s.plen.toNat ≤ 3 * s.width.toNat * s.height.toNat → s.plen.toNat ≤ s.src.length →
    ∃ t, run (8 * s.plen.toNat + 38 + (8 * s.plen.toNat + 36)) s = .next t ∧
      t.phase = .done ∧ t.result = .ok ∧ t.hdrLen = s.plen ∧ t.count = s.plen ∧
      t.sink = s.sink ++ s.src.take s.plen.toNat

/-- The off-by-4 case of R114 after "yes": the embed reports CAP_BYTES with RESULT = OK, and a later EXTRACT gives
the CAP_BYTES − 4 bytes that fit and ends with IncompleteExtraction. The host's plan is EMBED, WAIT,
CONFIRM yes, WAIT; then EXTRACT, WAIT; the step counts take each WAIT as one step (log entry 12).
The sink's readiness as a level is the model's choice (log entry 8). -/
def Obligations.AcceptedTruncationLosesFourBytes : Prop :=
  ∀ (s : State) (C : Nat),
    s.port = assemble [.run .embed, .run .confirmYes, .run .extract] →
    (s.phase = .idle ∨ s.phase = .done) → Memory.wf s.mem → s.sinkReady = true →
    C = 3 * s.width.toNat * s.height.toNat → 32 ≤ C → C / 8 < s.plen.toNat →
    (C - 32 + 7) / 8 ≤ s.src.length →
    ∃ t u, run (C - 32 + 40) s = .next t ∧ t.phase = .done ∧ t.result = .ok ∧ t.op = Config.opEmbed ∧
      t.leff.toNat = C / 8 ∧ t.count.toNat = C / 8 ∧ t.ci.toNat = C ∧
      t.overage.toNat = s.plen.toNat - C / 8 ∧ t.src = s.src.drop ((C - 32 + 7) / 8) ∧
      run (C - 32 + 36) t = .next u ∧ u.phase = .done ∧ u.result = .incompleteExtraction ∧
      u.hdrLen.toNat = C / 8 ∧ u.count.toNat = C / 8 - 4 ∧ u.ci.toNat = C ∧
      u.sink = s.sink ++ s.src.take (C / 8 - 4)

/-! ## Capacity, layout, memory, assembler -/

/-- R72, R73 and the laws of R77: monotone in each dimension, symmetric, a multiple of 3, and the quotient; and
R74's usable figure. -/
def Obligations.CapacityLaws : Prop :=
  (∀ w h : Dim,
    (capBitsOf w h).toNat = 3 * w.toNat * h.toNat ∧ capBitsOf w h = capBitsOf h w ∧
    3 ∣ (capBitsOf w h).toNat ∧
    8 * (capBytesOf (capBitsOf w h)).toNat ≤ (capBitsOf w h).toNat ∧
    (capBitsOf w h).toNat < 8 * (capBytesOf (capBitsOf w h)).toNat + 8 ∧
    (32 ≤ (capBitsOf w h).toNat →
      usableBytes (capBitsOf w h) = (capBytesOf (capBitsOf w h)).toNat - 4)) ∧
  (∀ w w' h : Dim, w.toNat ≤ w'.toNat →
    (capBitsOf w h).toNat ≤ (capBitsOf w' h).toNat ∧
    (capBytesOf (capBitsOf w h)).toNat ≤ (capBytesOf (capBitsOf w' h)).toNat) ∧
  (∀ w h h' : Dim, h.toNat ≤ h'.toNat →
    (capBitsOf w h).toNat ≤ (capBitsOf w h').toNat ∧
    (capBytesOf (capBitsOf w h)).toNat ≤ (capBytesOf (capBitsOf w h')).toNat)

/-- R38 and R85: rows and bytes behind the carrier index, that the map is one to one over the carriers, and where
the header lies. -/
def Obligations.CarrierIndexLayout : Prop :=
  (∀ (w : Dim) (r j : Nat), j < rowBytes w →
    rowOf w (carrierIndex w r j) = r ∧ byteInRow w (carrierIndex w r j) = j) ∧
  (∀ (w : Dim) (ci : Nat), carrierIndex w (rowOf w ci) (byteInRow w ci) = ci) ∧
  (∀ (w h : Dim) (r j : Nat), r < h.toNat → j < rowBytes w →
    carrierIndex w r j < (capBitsOf w h).toNat ∧ pixelOf j < w.toNat) ∧
  (∀ (w : Dim) (i : Nat), i < 32 → 11 ≤ w.toNat → rowOf w i = 0) ∧
  (∀ i, i < 32 → rowOf 4 i = (if i < 12 then 0 else if i < 24 then 1 else 2))

/-- Carrier memory: a read after a write, the canonical form, and that equal contents are equal data. -/
def Obligations.CarrierMemoryReadAfterWrite : Prop :=
  (∀ (m : Memory) (k j : Nat) (v : Byte), Memory.wf m →
    Memory.read (Memory.write m k v) j = (if j = k then v else Memory.read m j)) ∧
  (∀ (m : Memory) (k : Nat) (v : Byte), Memory.wf m → Memory.wf (Memory.write m k v)) ∧
  (∀ m n : Memory, Memory.wf m → Memory.wf n → (∀ k, Memory.read m k = Memory.read n k) → m = n)

/-- R68: the expansion of each pseudo-operation, in the host operations of the lines it stands for (R67), and
what WAIT and the conditional CONFIRM do. -/
def Obligations.PseudoOperationsExpand : Prop :=
  (∀ w h, assemble [.dim w h] = assemble [.wr Config.regWidth w, .wr Config.regHeight h]) ∧
  (∀ n, assemble [.len n] = assemble [.wr Config.regPlen n]) ∧
  (∀ i, assemble [.run i] = assemble [.command i, .wait]) ∧
  (assemble [.embedy] = assemble [.command .embed, .wait] ++ [.answer true] ++ assemble [.wait]) ∧
  (assemble [.embedn] = assemble [.command .embed, .wait] ++ [.answer false]) ∧
  (∀ (s : State) (rest : List HostOp), s.port = .wait :: rest →
    (busy s = false ∨ s.phase = .confirmTruncation → step s = .next { s with port := rest }) ∧
    (busy s = true → s.phase ≠ .confirmTruncation → step s = blockStep s)) ∧
  (∀ s : State, ∀ rest, s.port = .answer true :: rest → s.phase = .confirmTruncation →
    step s = exec .confirmYes { s with port := rest }) ∧
  (∀ s : State, ∀ rest, s.port = .answer false :: rest → s.phase = .confirmTruncation →
    step s = exec .confirmNo { s with port := rest }) ∧
  (∀ s : State, ∀ yes rest, s.port = .answer yes :: rest → s.phase ≠ .confirmTruncation →
    step s = .next { s with port := rest })

/-- The host's own accesses to carrier memory (R141): with BUSY = 0 the byte is placed at its index and nothing else
changes, or the byte read is recorded and nothing else changes; with BUSY = 1 both are refused (R145, U4). The
record and the refusal are the model's choice among what the spec allows (log entries 4, 11 and 16). -/
def Obligations.HostCarrierAccess : Prop :=
  (∀ (s : State) (ci : CarrierWord) (v : Byte) (rest : List HostOp), s.port = .putCarrier ci v :: rest →
    (busy s = false → Memory.wf s.mem → ∃ t, step s = .next t ∧ Memory.wf t.mem ∧
      (∀ a, Memory.read t.mem a = if a = ci.toNat then v else Memory.read s.mem a) ∧
      t = { s with port := rest, mem := t.mem }) ∧
    (busy s = true → step s = .refused .hostCarrierAccessWhileBusy)) ∧
  (∀ (s : State) (ci : CarrierWord) (rest : List HostOp), s.port = .getCarrier ci :: rest →
    (busy s = false →
      step s = .next { s with port := rest, seen := s.seen ++ [.carrier ci (Memory.read s.mem ci.toNat)] }) ∧
    (busy s = true → step s = .refused .hostCarrierAccessWhileBusy))

/-- The `.cm` and `.src` lines of a host program (R67): `.cm` places its bytes at the indices from `<ci>` on, `.src`
offers its bytes in order, and both come before every other line of the program, wherever they stand. That
`.src` too comes first is the model's reading (log entry 22). -/
def Obligations.SetupLinesComeFirst : Prop :=
  (∀ (ci : CarrierWord) (bytes : List Byte), ci.toNat + bytes.length ≤ 2 ^ 66 →
    (assemble [.cm ci bytes]).length = bytes.length ∧
    ∀ j, j < bytes.length → ∃ k : CarrierWord, k.toNat = ci.toNat + j ∧
      (assemble [.cm ci bytes])[j]? = some (.putCarrier k (bytes.getD j 0))) ∧
  (∀ bytes : List Byte, assemble [.src bytes] = bytes.map HostOp.offer) ∧
  (∀ (before after : List AsmLine) (l : AsmLine),
    ((∃ ci bytes, l = .cm ci bytes) ∨ ∃ bytes, l = .src bytes) →
    (∀ x, x ∈ before → (∀ ci bytes, x ≠ .cm ci bytes) ∧ ∀ bytes, x ≠ .src bytes) →
    assemble (before ++ l :: after) = assemble [l] ++ assemble (before ++ after))
end

