-- ==== Sys2Proof/Laws/Assembler.lean ====
section
/-! SUPPORT. The textual host program: which lines come first, and what a program that starts with one is. -/

namespace Sys2Proof.Machine

@[simp] theorem isSetup_cm (ci : CarrierWord) (bytes : List Byte) : (AsmLine.cm ci bytes).isSetup = true := rfl
@[simp] theorem isSetup_src (bytes : List Byte) : (AsmLine.src bytes).isSetup = true := rfl

/-- The lines that come first are the `.cm` and the `.src` lines. -/
theorem isSetup_eq_true {l : AsmLine} :
    l.isSetup = true ↔ (∃ ci bytes, l = .cm ci bytes) ∨ ∃ bytes, l = .src bytes := by
  cases l <;> simp [AsmLine.isSetup]

@[simp] theorem assemble_nil : assemble [] = [] := rfl

/-- A program that starts with a `.cm` or `.src` line does that line first. -/
theorem assemble_cons_setup {l : AsmLine} (h : l.isSetup = true) (ls : List AsmLine) :
    assemble (l :: ls) = l.expand ++ assemble ls := by
  simp [assemble, h]

@[simp] theorem assemble_cm (ci : CarrierWord) (bytes : List Byte) :
    assemble [.cm ci bytes] = placeFrom ci bytes := by
  rw [assemble_cons_setup rfl, assemble_nil, List.append_nil, AsmLine.expand]

@[simp] theorem assemble_src (bytes : List Byte) : assemble [.src bytes] = bytes.map HostOp.offer := by
  rw [assemble_cons_setup rfl, assemble_nil, List.append_nil, AsmLine.expand]

@[simp] theorem placeFrom_length (ci : CarrierWord) (bytes : List Byte) :
    (placeFrom ci bytes).length = bytes.length := by
  induction bytes generalizing ci with
  | nil => rfl
  | cons b bs ih => simp [placeFrom, ih]

end Sys2Proof.Machine
end

