-- ==== Sys2Proof/Laws/Decode.lean ====
section
/-! SUPPORT. Fields and words: taking a word apart and laying it out are inverse to each other. -/

namespace Sys2Proof

theorem wordOf_toNat (f : Fields) :
    (wordOf f).toNat = f.rsv.toNat * 32 + f.ans.toNat * 16 + f.opc.toNat := by
  have h1 := f.opc.isLt
  have h2 : f.ans.toNat < 2 ^ 1 := by cases f.ans <;> decide
  simp only [wordOf, BitVec.toNat_append, BitVec.toNat_ofBool]
  rw [← Nat.shiftLeft_add_eq_or_of_lt h1, ← Nat.shiftLeft_add_eq_or_of_lt h2, Nat.shiftLeft_eq, Nat.shiftLeft_eq]
  omega

/-- Two words with the same fields are the same word. -/
theorem wordOf_fieldsOf (c : CmdWord) : wordOf (fieldsOf c) = c := by
  apply BitVec.eq_of_toNat_eq
  rw [wordOf_toNat]
  have hc := c.isLt
  have hb : (c.getLsbD 4).toNat = c.toNat / 16 % 2 := by
    simp only [BitVec.getLsbD, Nat.testBit, Nat.shiftRight_eq_div_pow, Nat.and_comm 1, Nat.and_one_is_mod]
    rcases Nat.mod_two_eq_zero_or_one (c.toNat / 2 ^ 4) with h | h <;> simp_all
  simp only [fieldsOf, BitVec.extractLsb'_toNat, Nat.shiftRight_eq_div_pow, hb]
  omega

theorem fieldsOf_wordOf (f : Fields) : fieldsOf (wordOf f) = f := by
  obtain ⟨opc, ans, rsv⟩ := f
  have h1 := opc.isLt
  have h3 := rsv.isLt
  have h2 : ans.toNat < 2 := by cases ans <;> decide
  have hw := wordOf_toNat ⟨opc, ans, rsv⟩
  simp only at hw
  simp only [fieldsOf, Fields.mk.injEq]
  refine ⟨BitVec.eq_of_toNat_eq ?_, ?_, BitVec.eq_of_toNat_eq ?_⟩
  · rw [BitVec.extractLsb'_toNat, hw, Nat.shiftRight_zero]; omega
  · simp only [BitVec.getLsbD, hw, Nat.testBit, Nat.shiftRight_eq_div_pow, Nat.and_comm 1, Nat.and_one_is_mod]
    have : (rsv.toNat * 32 + ans.toNat * 16 + opc.toNat) / 2 ^ 4 % 2 = ans.toNat := by omega
    rw [this]; cases ans <;> rfl
  · rw [BitVec.extractLsb'_toNat, hw, Nat.shiftRight_eq_div_pow]; omega

/-- What the opcode map can answer. -/
theorem instrOf_eq_some {opc : BitVec 4} {ans : Bool} {i : Instr} (h : instrOf opc ans = some i) :
    opc = i.fields.opc ∧ (i.fields.opc = Config.opConfirm → ans = i.fields.ans) := by
  unfold instrOf at h
  repeat' (split at h)
  all_goals (cases h; try cases ans)
  all_goals first | contradiction | exact ⟨‹_›, by decide⟩

/-- The opcode map reads back every command's own fields. -/
theorem instrOf_fields (i : Instr) : instrOf i.fields.opc i.fields.ans = some i := by
  cases i <;> rfl

end Sys2Proof
end

