-- ==== Sys2Proof/Laws/Memory.lean ====
section
/-! SUPPORT. Carrier memory: a read after a write, and the canonical form. -/

namespace Sys2Proof.Machine

@[simp] theorem Memory.read_nil (k : Nat) : Memory.read [] k = Memory.unlisted := rfl

theorem Memory.wf_nil : Memory.wf [] := by simp [Memory.wf]

/-- The canonical form of a memory with a head entry. -/
theorem Memory.wf_cons {a : Nat} {w : Byte} {m : Memory} :
    Memory.wf ((a, w) :: m) ↔ (∀ c ∈ m, a < c.1) ∧ w ≠ Memory.unlisted ∧ Memory.wf m := by
  simp only [Memory.wf, List.pairwise_cons, List.forall_mem_cons]
  tauto

/-- An index below every listed one reads as unlisted. -/
theorem Memory.read_of_below {m : Memory} {k : Nat} (h : ∀ c ∈ m, k < c.1) :
    Memory.read m k = Memory.unlisted := by
  induction m with
  | nil => rfl
  | cons c m ih =>
    have hc := h c (by simp)
    simp only [Memory.read]
    rw [if_neg (by omega), ih (fun d hd => h d (by simp [hd]))]

theorem Memory.read_entry {k j : Nat} {v : Byte} {m : Memory} (h : ∀ c ∈ m, k < c.1) :
    Memory.read (Memory.entry k v m) j = if j = k then v else Memory.read m j := by
  unfold Memory.entry
  split
  · subst v
    split
    · subst j; exact Memory.read_of_below h
    · rfl
  · simp only [Memory.read, eq_comm]

theorem Memory.wf_entry {k : Nat} {v : Byte} {m : Memory} (hm : Memory.wf m) (h : ∀ c ∈ m, k < c.1) :
    Memory.wf (Memory.entry k v m) := by
  unfold Memory.entry
  split
  · exact hm
  · exact Memory.wf_cons.2 ⟨h, ‹_›, hm⟩

theorem Memory.mem_entry {k : Nat} {v : Byte} {m : Memory} {c : Host.Cell} (h : c ∈ Memory.entry k v m) :
    c.1 = k ∨ c ∈ m := by
  unfold Memory.entry at h
  split at h
  · exact .inr h
  · rcases List.mem_cons.1 h with rfl | h
    · exact .inl rfl
    · exact .inr h

/-- A write lists no index but the one written and those listed before. -/
theorem Memory.mem_write {m : Memory} {k : Nat} {v : Byte} {c : Host.Cell} (h : c ∈ Memory.write m k v) :
    c.1 = k ∨ ∃ d ∈ m, c.1 = d.1 := by
  induction m with
  | nil => exact (Memory.mem_entry h).imp_right fun h => by simp at h
  | cons d m ih =>
    obtain ⟨a, w⟩ := d
    simp only [Memory.write] at h
    split at h
    · rcases List.mem_cons.1 h with rfl | h
      · exact .inr ⟨_, List.mem_cons_self .., rfl⟩
      · exact (ih h).imp_right fun ⟨e, he, h⟩ => ⟨e, List.mem_cons_of_mem _ he, h⟩
    · split at h
      · exact (Memory.mem_entry h).imp_right fun h => ⟨c, List.mem_cons_of_mem _ h, rfl⟩
      · exact (Memory.mem_entry h).imp_right fun h => ⟨c, h, rfl⟩

/-- Every write keeps the canonical form. -/
theorem Memory.wf_write {m : Memory} {k : Nat} {v : Byte} (hm : Memory.wf m) : Memory.wf (Memory.write m k v) := by
  induction m with
  | nil => exact Memory.wf_entry Memory.wf_nil (by simp)
  | cons d m ih =>
    obtain ⟨a, w⟩ := d
    obtain ⟨hlt, hw, hm'⟩ := Memory.wf_cons.1 hm
    simp only [Memory.write]
    split
    · refine Memory.wf_cons.2 ⟨fun c hc => ?_, hw, ih hm'⟩
      rcases Memory.mem_write hc with h | ⟨d, hd, h⟩
      · omega
      · have := hlt d hd; omega
    · split
      · subst a; exact Memory.wf_entry hm' hlt
      · refine Memory.wf_entry hm fun c hc => ?_
        rcases List.mem_cons.1 hc with rfl | hc
        · simp only; omega
        · have := hlt c hc; omega

/-- A read after a write: the byte written at the index written, and every other byte as before. -/
theorem Memory.read_write {m : Memory} (hm : Memory.wf m) (k j : Nat) (v : Byte) :
    Memory.read (Memory.write m k v) j = if j = k then v else Memory.read m j := by
  induction m with
  | nil => exact Memory.read_entry (by simp)
  | cons d m ih =>
    obtain ⟨a, w⟩ := d
    obtain ⟨hlt, hw, hm'⟩ := Memory.wf_cons.1 hm
    simp only [Memory.write]
    split
    · simp only [Memory.read, ih hm']
      grind
    · split
      · subst a
        rw [Memory.read_entry hlt]
        simp only [Memory.read]
        grind
      · refine Memory.read_entry fun c hc => ?_
        rcases List.mem_cons.1 hc with rfl | hc
        · simp only; omega
        · have := hlt c hc; omega

/-- A listed index reads as its entry. -/
theorem Memory.read_of_mem {m : Memory} (hm : Memory.wf m) {c : Host.Cell} (hc : c ∈ m) :
    Memory.read m c.1 = c.2 := by
  induction m with
  | nil => simp at hc
  | cons d m ih =>
    obtain ⟨a, w⟩ := d
    obtain ⟨hlt, -, hm'⟩ := Memory.wf_cons.1 hm
    simp only [Memory.read]
    rcases List.mem_cons.1 hc with rfl | hc
    · simp
    · have := hlt c hc
      rw [if_neg (by omega), ih hm' hc]

/-- Equal memories are equal data: two canonical memories that read alike are the same list. -/
theorem Memory.ext_read {m n : Memory} (hm : Memory.wf m) (hn : Memory.wf n)
    (h : ∀ k, Memory.read m k = Memory.read n k) : m = n := by
  induction m generalizing n with
  | nil =>
    cases n with
    | nil => rfl
    | cons d n =>
      have := h d.1
      rw [Memory.read_of_mem hn (List.mem_cons_self ..)] at this
      exact absurd this.symm (Memory.wf_cons.1 hn).2.1
  | cons c m ih =>
    cases n with
    | nil =>
      have := h c.1
      rw [Memory.read_of_mem hm (List.mem_cons_self ..)] at this
      exact absurd this (Memory.wf_cons.1 hm).2.1
    | cons d n =>
      obtain ⟨a, w⟩ := c
      obtain ⟨b, x⟩ := d
      obtain ⟨hlt, hw, hm'⟩ := Memory.wf_cons.1 hm
      obtain ⟨hlt', hx, hn'⟩ := Memory.wf_cons.1 hn
      have hab : a = b := by
        rcases Nat.lt_trichotomy a b with hab | hab | hab
        · have := h a
          rw [Memory.read_of_below (m := (b, x) :: n)] at this
          · simp [Memory.read] at this; exact absurd this hw
          · intro c hc
            rcases List.mem_cons.1 hc with rfl | hc
            · exact hab
            · have := hlt' c hc; omega
        · exact hab
        · have := h b
          rw [Memory.read_of_below (m := (a, w) :: m)] at this
          · simp [Memory.read] at this; exact absurd this.symm hx
          · intro c hc
            rcases List.mem_cons.1 hc with rfl | hc
            · exact hab
            · have := hlt c hc; omega
      subst hab
      have hwx : w = x := by simpa [Memory.read] using h a
      subst hwx
      rw [ih hm' hn' fun k => ?_]
      have := h k
      simp only [Memory.read] at this
      split at this
      · subst_vars
        rw [Memory.read_of_below hlt, Memory.read_of_below hlt']
      · exact this

end Sys2Proof.Machine
end

