-- ==== Sys2Proof/Laws/State.lean ====
section
/-! SUPPORT. The fields of the states that the shared operations make, one lemma per field and operation, so
that no later proof unfolds a record update. -/

namespace Sys2Proof.Machine

@[simp] theorem finish_phase (r : Result) (s : State) : (finish r s).phase = .done := rfl
@[simp] theorem finish_result (r : Result) (s : State) : (finish r s).result = r := rfl
@[simp] theorem finish_cmdErr (r : Result) (s : State) : (finish r s).cmdErr = s.cmdErr := rfl
@[simp] theorem finish_op (r : Result) (s : State) : (finish r s).op = s.op := rfl
@[simp] theorem finish_width (r : Result) (s : State) : (finish r s).width = s.width := rfl
@[simp] theorem finish_height (r : Result) (s : State) : (finish r s).height = s.height := rfl
@[simp] theorem finish_plen (r : Result) (s : State) : (finish r s).plen = s.plen := rfl
@[simp] theorem finish_capBits (r : Result) (s : State) : (finish r s).capBits = s.capBits := rfl
@[simp] theorem finish_capBytes (r : Result) (s : State) : (finish r s).capBytes = s.capBytes := rfl
@[simp] theorem finish_leff (r : Result) (s : State) : (finish r s).leff = s.leff := rfl
@[simp] theorem finish_hdrLen (r : Result) (s : State) : (finish r s).hdrLen = s.hdrLen := rfl
@[simp] theorem finish_count (r : Result) (s : State) : (finish r s).count = s.count := rfl
@[simp] theorem finish_ci (r : Result) (s : State) : (finish r s).ci = s.ci := rfl
@[simp] theorem finish_overage (r : Result) (s : State) : (finish r s).overage = s.overage := rfl
@[simp] theorem finish_acc (r : Result) (s : State) : (finish r s).acc = s.acc := rfl
@[simp] theorem finish_bitpos (r : Result) (s : State) : (finish r s).bitpos = s.bitpos := rfl
@[simp] theorem finish_mem (r : Result) (s : State) : (finish r s).mem = s.mem := rfl
@[simp] theorem finish_src (r : Result) (s : State) : (finish r s).src = s.src := rfl
@[simp] theorem finish_sink (r : Result) (s : State) : (finish r s).sink = s.sink := rfl
@[simp] theorem finish_sinkReady (r : Result) (s : State) : (finish r s).sinkReady = s.sinkReady := rfl
@[simp] theorem finish_port (r : Result) (s : State) : (finish r s).port = s.port := rfl
@[simp] theorem finish_seen (r : Result) (s : State) : (finish r s).seen = s.seen := rfl

@[simp] theorem turnAway_phase (s : State) : (turnAway s).phase = s.phase := rfl
@[simp] theorem turnAway_result (s : State) : (turnAway s).result = s.result := rfl
@[simp] theorem turnAway_cmdErr (s : State) : (turnAway s).cmdErr = true := rfl
@[simp] theorem turnAway_op (s : State) : (turnAway s).op = s.op := rfl
@[simp] theorem turnAway_width (s : State) : (turnAway s).width = s.width := rfl
@[simp] theorem turnAway_height (s : State) : (turnAway s).height = s.height := rfl
@[simp] theorem turnAway_plen (s : State) : (turnAway s).plen = s.plen := rfl
@[simp] theorem turnAway_capBits (s : State) : (turnAway s).capBits = s.capBits := rfl
@[simp] theorem turnAway_capBytes (s : State) : (turnAway s).capBytes = s.capBytes := rfl
@[simp] theorem turnAway_leff (s : State) : (turnAway s).leff = s.leff := rfl
@[simp] theorem turnAway_hdrLen (s : State) : (turnAway s).hdrLen = s.hdrLen := rfl
@[simp] theorem turnAway_count (s : State) : (turnAway s).count = s.count := rfl
@[simp] theorem turnAway_ci (s : State) : (turnAway s).ci = s.ci := rfl
@[simp] theorem turnAway_overage (s : State) : (turnAway s).overage = s.overage := rfl
@[simp] theorem turnAway_acc (s : State) : (turnAway s).acc = s.acc := rfl
@[simp] theorem turnAway_bitpos (s : State) : (turnAway s).bitpos = s.bitpos := rfl
@[simp] theorem turnAway_mem (s : State) : (turnAway s).mem = s.mem := rfl
@[simp] theorem turnAway_src (s : State) : (turnAway s).src = s.src := rfl
@[simp] theorem turnAway_sink (s : State) : (turnAway s).sink = s.sink := rfl
@[simp] theorem turnAway_sinkReady (s : State) : (turnAway s).sinkReady = s.sinkReady := rfl
@[simp] theorem turnAway_port (s : State) : (turnAway s).port = s.port := rfl
@[simp] theorem turnAway_seen (s : State) : (turnAway s).seen = s.seen := rfl

@[simp] theorem takeIllegal_phase (opc : BitVec 4) (s : State) : (takeIllegal opc s).phase = .done := rfl
@[simp] theorem takeIllegal_result (opc : BitVec 4) (s : State) : (takeIllegal opc s).result = .illegalCommand := rfl
@[simp] theorem takeIllegal_cmdErr (opc : BitVec 4) (s : State) : (takeIllegal opc s).cmdErr = false := rfl
@[simp] theorem takeIllegal_op (opc : BitVec 4) (s : State) : (takeIllegal opc s).op = opc := rfl
@[simp] theorem takeIllegal_width (opc : BitVec 4) (s : State) : (takeIllegal opc s).width = s.width := rfl
@[simp] theorem takeIllegal_height (opc : BitVec 4) (s : State) : (takeIllegal opc s).height = s.height := rfl
@[simp] theorem takeIllegal_plen (opc : BitVec 4) (s : State) : (takeIllegal opc s).plen = s.plen := rfl
@[simp] theorem takeIllegal_capBits (opc : BitVec 4) (s : State) : (takeIllegal opc s).capBits = s.capBits := rfl
@[simp] theorem takeIllegal_capBytes (opc : BitVec 4) (s : State) : (takeIllegal opc s).capBytes = s.capBytes := rfl
@[simp] theorem takeIllegal_leff (opc : BitVec 4) (s : State) : (takeIllegal opc s).leff = s.leff := rfl
@[simp] theorem takeIllegal_hdrLen (opc : BitVec 4) (s : State) : (takeIllegal opc s).hdrLen = s.hdrLen := rfl
@[simp] theorem takeIllegal_count (opc : BitVec 4) (s : State) : (takeIllegal opc s).count = s.count := rfl
@[simp] theorem takeIllegal_ci (opc : BitVec 4) (s : State) : (takeIllegal opc s).ci = s.ci := rfl
@[simp] theorem takeIllegal_overage (opc : BitVec 4) (s : State) : (takeIllegal opc s).overage = s.overage := rfl
@[simp] theorem takeIllegal_acc (opc : BitVec 4) (s : State) : (takeIllegal opc s).acc = s.acc := rfl
@[simp] theorem takeIllegal_bitpos (opc : BitVec 4) (s : State) : (takeIllegal opc s).bitpos = s.bitpos := rfl
@[simp] theorem takeIllegal_mem (opc : BitVec 4) (s : State) : (takeIllegal opc s).mem = s.mem := rfl
@[simp] theorem takeIllegal_src (opc : BitVec 4) (s : State) : (takeIllegal opc s).src = s.src := rfl
@[simp] theorem takeIllegal_sink (opc : BitVec 4) (s : State) : (takeIllegal opc s).sink = s.sink := rfl
@[simp] theorem takeIllegal_sinkReady (opc : BitVec 4) (s : State) : (takeIllegal opc s).sinkReady = s.sinkReady := rfl
@[simp] theorem takeIllegal_port (opc : BitVec 4) (s : State) : (takeIllegal opc s).port = s.port := rfl
@[simp] theorem takeIllegal_seen (opc : BitVec 4) (s : State) : (takeIllegal opc s).seen = s.seen := rfl

@[simp] theorem take_phase (op : BitVec 4) (s : State) : (take op s).phase = s.phase := rfl
@[simp] theorem take_result (op : BitVec 4) (s : State) : (take op s).result = .ok := rfl
@[simp] theorem take_cmdErr (op : BitVec 4) (s : State) : (take op s).cmdErr = false := rfl
@[simp] theorem take_op (op : BitVec 4) (s : State) : (take op s).op = op := rfl
@[simp] theorem take_width (op : BitVec 4) (s : State) : (take op s).width = s.width := rfl
@[simp] theorem take_height (op : BitVec 4) (s : State) : (take op s).height = s.height := rfl
@[simp] theorem take_plen (op : BitVec 4) (s : State) : (take op s).plen = s.plen := rfl
@[simp] theorem take_capBits (op : BitVec 4) (s : State) : (take op s).capBits = capBitsOf s.width s.height := rfl
@[simp] theorem take_capBytes (op : BitVec 4) (s : State) : (take op s).capBytes = capBytesOf (capBitsOf s.width s.height) := rfl
@[simp] theorem take_leff (op : BitVec 4) (s : State) : (take op s).leff = 0 := rfl
@[simp] theorem take_hdrLen (op : BitVec 4) (s : State) : (take op s).hdrLen = 0 := rfl
@[simp] theorem take_count (op : BitVec 4) (s : State) : (take op s).count = 0 := rfl
@[simp] theorem take_ci (op : BitVec 4) (s : State) : (take op s).ci = 0 := rfl
@[simp] theorem take_overage (op : BitVec 4) (s : State) : (take op s).overage = 0 := rfl
@[simp] theorem take_acc (op : BitVec 4) (s : State) : (take op s).acc = 0 := rfl
@[simp] theorem take_bitpos (op : BitVec 4) (s : State) : (take op s).bitpos = 0 := rfl
@[simp] theorem take_mem (op : BitVec 4) (s : State) : (take op s).mem = s.mem := rfl
@[simp] theorem take_src (op : BitVec 4) (s : State) : (take op s).src = s.src := rfl
@[simp] theorem take_sink (op : BitVec 4) (s : State) : (take op s).sink = s.sink := rfl
@[simp] theorem take_sinkReady (op : BitVec 4) (s : State) : (take op s).sinkReady = s.sinkReady := rfl
@[simp] theorem take_port (op : BitVec 4) (s : State) : (take op s).port = s.port := rfl
@[simp] theorem take_seen (op : BitVec 4) (s : State) : (take op s).seen = s.seen := rfl

@[simp] theorem resetBlock_phase (s : State) : (resetBlock s).phase = State.reset.phase := rfl
@[simp] theorem resetBlock_result (s : State) : (resetBlock s).result = State.reset.result := rfl
@[simp] theorem resetBlock_cmdErr (s : State) : (resetBlock s).cmdErr = State.reset.cmdErr := rfl
@[simp] theorem resetBlock_op (s : State) : (resetBlock s).op = State.reset.op := rfl
@[simp] theorem resetBlock_width (s : State) : (resetBlock s).width = State.reset.width := rfl
@[simp] theorem resetBlock_height (s : State) : (resetBlock s).height = State.reset.height := rfl
@[simp] theorem resetBlock_plen (s : State) : (resetBlock s).plen = State.reset.plen := rfl
@[simp] theorem resetBlock_capBits (s : State) : (resetBlock s).capBits = State.reset.capBits := rfl
@[simp] theorem resetBlock_capBytes (s : State) : (resetBlock s).capBytes = State.reset.capBytes := rfl
@[simp] theorem resetBlock_leff (s : State) : (resetBlock s).leff = State.reset.leff := rfl
@[simp] theorem resetBlock_hdrLen (s : State) : (resetBlock s).hdrLen = State.reset.hdrLen := rfl
@[simp] theorem resetBlock_count (s : State) : (resetBlock s).count = State.reset.count := rfl
@[simp] theorem resetBlock_ci (s : State) : (resetBlock s).ci = State.reset.ci := rfl
@[simp] theorem resetBlock_overage (s : State) : (resetBlock s).overage = State.reset.overage := rfl
@[simp] theorem resetBlock_acc (s : State) : (resetBlock s).acc = State.reset.acc := rfl
@[simp] theorem resetBlock_bitpos (s : State) : (resetBlock s).bitpos = State.reset.bitpos := rfl
@[simp] theorem resetBlock_mem (s : State) : (resetBlock s).mem = s.mem := rfl
@[simp] theorem resetBlock_src (s : State) : (resetBlock s).src = s.src := rfl
@[simp] theorem resetBlock_sink (s : State) : (resetBlock s).sink = s.sink := rfl
@[simp] theorem resetBlock_sinkReady (s : State) : (resetBlock s).sinkReady = s.sinkReady := rfl
@[simp] theorem resetBlock_port (s : State) : (resetBlock s).port = s.port := rfl
@[simp] theorem resetBlock_seen (s : State) : (resetBlock s).seen = s.seen := rfl

@[simp] theorem pushCommand_phase (c : CmdWord) (s : State) : (pushCommand c s).phase = s.phase := rfl
@[simp] theorem pushCommand_result (c : CmdWord) (s : State) : (pushCommand c s).result = s.result := rfl
@[simp] theorem pushCommand_cmdErr (c : CmdWord) (s : State) : (pushCommand c s).cmdErr = s.cmdErr := rfl
@[simp] theorem pushCommand_op (c : CmdWord) (s : State) : (pushCommand c s).op = s.op := rfl
@[simp] theorem pushCommand_width (c : CmdWord) (s : State) : (pushCommand c s).width = s.width := rfl
@[simp] theorem pushCommand_height (c : CmdWord) (s : State) : (pushCommand c s).height = s.height := rfl
@[simp] theorem pushCommand_plen (c : CmdWord) (s : State) : (pushCommand c s).plen = s.plen := rfl
@[simp] theorem pushCommand_capBits (c : CmdWord) (s : State) : (pushCommand c s).capBits = s.capBits := rfl
@[simp] theorem pushCommand_capBytes (c : CmdWord) (s : State) : (pushCommand c s).capBytes = s.capBytes := rfl
@[simp] theorem pushCommand_leff (c : CmdWord) (s : State) : (pushCommand c s).leff = s.leff := rfl
@[simp] theorem pushCommand_hdrLen (c : CmdWord) (s : State) : (pushCommand c s).hdrLen = s.hdrLen := rfl
@[simp] theorem pushCommand_count (c : CmdWord) (s : State) : (pushCommand c s).count = s.count := rfl
@[simp] theorem pushCommand_ci (c : CmdWord) (s : State) : (pushCommand c s).ci = s.ci := rfl
@[simp] theorem pushCommand_overage (c : CmdWord) (s : State) : (pushCommand c s).overage = s.overage := rfl
@[simp] theorem pushCommand_acc (c : CmdWord) (s : State) : (pushCommand c s).acc = s.acc := rfl
@[simp] theorem pushCommand_bitpos (c : CmdWord) (s : State) : (pushCommand c s).bitpos = s.bitpos := rfl
@[simp] theorem pushCommand_mem (c : CmdWord) (s : State) : (pushCommand c s).mem = s.mem := rfl
@[simp] theorem pushCommand_src (c : CmdWord) (s : State) : (pushCommand c s).src = s.src := rfl
@[simp] theorem pushCommand_sink (c : CmdWord) (s : State) : (pushCommand c s).sink = s.sink := rfl
@[simp] theorem pushCommand_sinkReady (c : CmdWord) (s : State) : (pushCommand c s).sinkReady = s.sinkReady := rfl
@[simp] theorem pushCommand_port (c : CmdWord) (s : State) : (pushCommand c s).port = .write Config.regCmd c :: s.port := rfl
@[simp] theorem pushCommand_seen (c : CmdWord) (s : State) : (pushCommand c s).seen = s.seen := rfl

@[simp] theorem hostRead_phase (n : RegNum) (s : State) : (hostRead n s).phase = s.phase := rfl
@[simp] theorem hostRead_result (n : RegNum) (s : State) : (hostRead n s).result = s.result := rfl
@[simp] theorem hostRead_cmdErr (n : RegNum) (s : State) : (hostRead n s).cmdErr = s.cmdErr := rfl
@[simp] theorem hostRead_op (n : RegNum) (s : State) : (hostRead n s).op = s.op := rfl
@[simp] theorem hostRead_width (n : RegNum) (s : State) : (hostRead n s).width = s.width := rfl
@[simp] theorem hostRead_height (n : RegNum) (s : State) : (hostRead n s).height = s.height := rfl
@[simp] theorem hostRead_plen (n : RegNum) (s : State) : (hostRead n s).plen = s.plen := rfl
@[simp] theorem hostRead_capBits (n : RegNum) (s : State) : (hostRead n s).capBits = s.capBits := rfl
@[simp] theorem hostRead_capBytes (n : RegNum) (s : State) : (hostRead n s).capBytes = s.capBytes := rfl
@[simp] theorem hostRead_leff (n : RegNum) (s : State) : (hostRead n s).leff = s.leff := rfl
@[simp] theorem hostRead_hdrLen (n : RegNum) (s : State) : (hostRead n s).hdrLen = s.hdrLen := rfl
@[simp] theorem hostRead_count (n : RegNum) (s : State) : (hostRead n s).count = s.count := rfl
@[simp] theorem hostRead_ci (n : RegNum) (s : State) : (hostRead n s).ci = s.ci := rfl
@[simp] theorem hostRead_overage (n : RegNum) (s : State) : (hostRead n s).overage = s.overage := rfl
@[simp] theorem hostRead_acc (n : RegNum) (s : State) : (hostRead n s).acc = s.acc := rfl
@[simp] theorem hostRead_bitpos (n : RegNum) (s : State) : (hostRead n s).bitpos = s.bitpos := rfl
@[simp] theorem hostRead_mem (n : RegNum) (s : State) : (hostRead n s).mem = s.mem := rfl
@[simp] theorem hostRead_src (n : RegNum) (s : State) : (hostRead n s).src = s.src := rfl
@[simp] theorem hostRead_sink (n : RegNum) (s : State) : (hostRead n s).sink = s.sink := rfl
@[simp] theorem hostRead_sinkReady (n : RegNum) (s : State) : (hostRead n s).sinkReady = s.sinkReady := rfl
@[simp] theorem hostRead_port (n : RegNum) (s : State) : (hostRead n s).port = s.port := rfl
@[simp] theorem hostRead_seen (n : RegNum) (s : State) : (hostRead n s).seen = s.seen ++ [.reg n (readReg n s)] := rfl

@[simp] theorem reset_phase : State.reset.phase = .idle := rfl
@[simp] theorem reset_result : State.reset.result = .ok := rfl
@[simp] theorem reset_cmdErr : State.reset.cmdErr = false := rfl
@[simp] theorem reset_op : State.reset.op = 0 := rfl
@[simp] theorem reset_width : State.reset.width = 0 := rfl
@[simp] theorem reset_height : State.reset.height = 0 := rfl
@[simp] theorem reset_plen : State.reset.plen = 0 := rfl
@[simp] theorem reset_capBits : State.reset.capBits = 0 := rfl
@[simp] theorem reset_capBytes : State.reset.capBytes = 0 := rfl
@[simp] theorem reset_leff : State.reset.leff = 0 := rfl
@[simp] theorem reset_hdrLen : State.reset.hdrLen = 0 := rfl
@[simp] theorem reset_count : State.reset.count = 0 := rfl
@[simp] theorem reset_ci : State.reset.ci = 0 := rfl
@[simp] theorem reset_overage : State.reset.overage = 0 := rfl
@[simp] theorem reset_acc : State.reset.acc = 0 := rfl
@[simp] theorem reset_bitpos : State.reset.bitpos = 0 := rfl
@[simp] theorem reset_mem : State.reset.mem = [] := rfl
@[simp] theorem reset_src : State.reset.src = [] := rfl
@[simp] theorem reset_sink : State.reset.sink = [] := rfl
@[simp] theorem reset_sinkReady : State.reset.sinkReady = true := rfl
@[simp] theorem reset_port : State.reset.port = [] := rfl
@[simp] theorem reset_seen : State.reset.seen = [] := rfl

end Sys2Proof.Machine
end

