-- ==== Sys2Proof/Laws/Ops.lean ====
section
/-! SUPPORT. The shared operations: what each can do, said once. -/

namespace Sys2Proof.Machine

/-! Bits. -/

/-- Bit 0 of `setLsb v b` is `b` and bits 7..1 are those of `v` (R14). -/
theorem getLsbD_setLsb (v : Byte) (b : Bool) (i : Nat) :
    (setLsb v b).getLsbD i = if i = 0 then b else v.getLsbD i := by
  have hmask : ∀ i : Fin 8, (0xFE#8).getLsbD i = decide (i.val ≠ 0) := by decide
  rcases Nat.lt_or_ge i 8 with h | h
  · have := hmask ⟨i, h⟩
    simp only at this
    simp only [setLsb, BitVec.getLsbD_or, BitVec.getLsbD_and, BitVec.getLsbD_setWidth, BitVec.getLsbD_ofBool,
      this, h, decide_true]
    split <;> simp_all
  · rw [BitVec.getLsbD_of_ge _ _ h, BitVec.getLsbD_of_ge _ _ h, if_neg (by omega)]

@[simp] theorem lsb_setLsb (v : Byte) (b : Bool) : lsb (setLsb v b) = b := by
  rw [lsb, getLsbD_setLsb, if_pos rfl]

/-- Writing a bit twice leaves the last one. -/
@[simp] theorem setLsb_setLsb (v : Byte) (b c : Bool) : setLsb (setLsb v b) c = setLsb v c := by
  apply BitVec.eq_of_getLsbD_eq
  intro i _
  simp only [getLsbD_setLsb]
  split <;> rfl

theorem getLsbD_orBit (v : Len) (i : Nat) (b : Bool) (j : Nat) (hi : i < 32) :
    (orBit v i b).getLsbD j = (v.getLsbD j || (decide (j = i) && b)) := by
  simp only [orBit, BitVec.getLsbD_or, BitVec.getLsbD_shiftLeft, BitVec.getLsbD_setWidth, BitVec.getLsbD_ofBool]
  rcases Nat.lt_trichotomy j i with h | h | h
  · simp [h, Nat.ne_of_lt h]
  · subst h; simp [hi]
  · have : j - i ≠ 0 := by omega
    simp [this, Nat.ne_of_gt h]

theorem getLsbD_accumulate (a : Byte) (p : BitVec 3) (b : Bool) (j : Nat) :
    (accumulate a p b).getLsbD j = (a.getLsbD j || (decide (j = p.toNat) && b)) := by
  have hp : p.toNat < 8 := p.isLt
  simp only [accumulate, BitVec.getLsbD_or, BitVec.getLsbD_shiftLeft, BitVec.getLsbD_setWidth, BitVec.getLsbD_ofBool]
  rcases Nat.lt_trichotomy j p.toNat with h | h | h
  · simp [h, Nat.ne_of_lt h]
  · simp [h, hp]
  · have : j - p.toNat ≠ 0 := by omega
    simp [this, Nat.ne_of_gt h]

/-! Capacity (40_capacity.md R72, R73). -/

theorem capacity_lt (w h : Dim) : 3 * w.toNat * h.toNat ≤ 3 * (2 ^ 32 - 1) ^ 2 := by
  have hw : w.toNat ≤ 2 ^ 32 - 1 := by have := w.isLt; omega
  have hh : h.toNat ≤ 2 ^ 32 - 1 := by have := h.isLt; omega
  calc 3 * w.toNat * h.toNat = 3 * (w.toNat * h.toNat) := by ring
    _ ≤ 3 * ((2 ^ 32 - 1) * (2 ^ 32 - 1)) := Nat.mul_le_mul_left _ (Nat.mul_le_mul hw hh)
    _ = _ := by norm_num

/-- CAP_BITS holds the product exactly: nothing wraps. -/
theorem toNat_capBitsOf (w h : Dim) : (capBitsOf w h).toNat = 3 * w.toNat * h.toNat := by
  have := capacity_lt w h
  simp only [capBitsOf, Config.bytesPerPixel, BitVec.toNat_ofNat]
  exact Nat.mod_eq_of_lt (by omega)

/-- CAP_BYTES holds the quotient exactly: nothing wraps. -/
theorem toNat_capBytesOf (c : CarrierWord) : (capBytesOf c).toNat = c.toNat / 8 := by
  have := c.isLt
  simp only [capBytesOf, Config.bitsPerPayloadByte, BitVec.toNat_ofNat]
  exact Nat.mod_eq_of_lt (by omega)

@[simp] theorem toNat_payloadStart : (BitVec.ofNat 66 Config.payloadStart).toNat = 32 := rfl

/-! Carrier memory. -/

/-- `CarRead` answers the byte at the index exactly below CAP_BITS (R39). -/
theorem carRead_eq_some {ci : CarrierWord} {s : State} {v : Byte} :
    carRead ci s = some v ↔ ci.toNat < s.capBits.toNat ∧ v = Memory.read s.mem ci.toNat := by
  simp only [carRead, BitVec.lt_def]
  split <;> simp_all [eq_comm]

theorem carRead_of_lt {ci : CarrierWord} {s : State} (h : ci.toNat < s.capBits.toNat) :
    carRead ci s = some (Memory.read s.mem ci.toNat) := carRead_eq_some.2 ⟨h, rfl⟩

/-- The read-modify-write of R40: below CAP_BITS it changes carrier memory alone, and there only bit 0 of
the byte at the index. -/
theorem carSetLsb_eq_some {ci : CarrierWord} {b : Bool} {s t : State} :
    carSetLsb ci b s = some t ↔ ci.toNat < s.capBits.toNat ∧
      t = { s with mem := Memory.write s.mem ci.toNat (setLsb (Memory.read s.mem ci.toNat) b) } := by
  simp only [carSetLsb, carRead, carWrite, BitVec.lt_def]
  split <;> rename_i h <;> split at h <;> simp_all [eq_comm]

theorem carSetLsb_of_lt {ci : CarrierWord} {b : Bool} {s : State} (h : ci.toNat < s.capBits.toNat) :
    carSetLsb ci b s =
      some { s with mem := Memory.write s.mem ci.toNat (setLsb (Memory.read s.mem ci.toNat) b) } :=
  carSetLsb_eq_some.2 ⟨h, rfl⟩

/-- Every carrier after a read-modify-write. -/
theorem read_carSetLsb {m : Memory} (hm : Memory.wf m) (k j : Nat) (b : Bool) :
    Memory.read (Memory.write m k (setLsb (Memory.read m k) b)) j =
      if j = k then setLsb (Memory.read m j) b else Memory.read m j := by
  rw [Memory.read_write hm]
  split
  · subst j; rfl
  · rfl

/-! The streams. -/

theorem srcRead_eq_none {s : State} : srcRead s = none ↔ s.src = [] := by
  unfold srcRead; split <;> simp_all

theorem srcRead_cons {s : State} {b : Byte} {rest : List Byte} (h : s.src = b :: rest) :
    srcRead s = some { s with src := rest, acc := b } := by
  unfold srcRead; rw [h]

theorem sinkWrite_ready {s : State} (h : s.sinkReady = true) (b : Byte) :
    sinkWrite b s = some { s with sink := s.sink ++ [b] } := by simp [sinkWrite, h]

theorem sinkWrite_eq_none {s : State} {b : Byte} : sinkWrite b s = none ↔ s.sinkReady = false := by
  unfold sinkWrite; split <;> simp_all

/-! Commands. -/

/-- BUSY by STATE (R23). -/
theorem busy_eq_false {s : State} : busy s = false ↔ s.phase = .idle ∨ s.phase = .done := by
  cases h : s.phase <;> simp [busy, h]

theorem busy_eq_true {s : State} : busy s = true ↔ s.phase ≠ .idle ∧ s.phase ≠ .done := by
  cases h : s.phase <;> simp [busy, h]

theorem confirmReq_eq_true {s : State} : confirmReq s = true ↔ s.phase = .confirmTruncation := by
  simp [confirmReq]

theorem commandWith_busy {s : State} (h : busy s = true) (f : State → State) :
    commandWith f s = turnAway s := by simp [commandWith, h]

theorem commandWith_ready {s : State} (h : busy s = false) (f : State → State) :
    commandWith f s = f s := by simp [commandWith, h]

theorem confirmWith_asked {s : State} (h : confirmReq s = true) (f : State → State) :
    confirmWith f s = f s := by simp [confirmWith, h]

theorem confirmWith_unasked {s : State} (h : confirmReq s = false) (f : State → State) :
    confirmWith f s = commandIllegal Config.opConfirm s := by simp [confirmWith, h]

theorem unlessUndersized_small {s t : State} (h : s.capBits.toNat < 32) :
    unlessUndersized s t = finish .undersizedCarrier s := by simp [unlessUndersized, h]

theorem unlessUndersized_big {s t : State} (h : 32 ≤ s.capBits.toNat) :
    unlessUndersized s t = t := by
  simp only [unlessUndersized, Config.headerBits]
  rw [if_neg (by omega)]

/-- Taking a command sets CAP_BITS and CAP_BYTES exactly and clears the rest (R62). -/
theorem take_takenAs (op : BitVec 4) (s : State) : TakenAs op s (take op s) where
  op_eq := rfl
  cmdErr := rfl
  capBits := toNat_capBitsOf _ _
  capBytes := by rw [take_capBytes, toNat_capBytesOf, toNat_capBitsOf]
  count := rfl
  hdrLen := rfl
  overage := rfl
  acc := rfl
  bitpos := rfl
  config := ⟨rfl, rfl, rfl⟩
  outside := ⟨rfl, rfl, rfl, rfl, rfl, rfl⟩

/-- What R63 goes on to set does not touch what R62 left. -/
theorem TakenAs.first_state {op : BitVec 4} {s t : State} (h : TakenAs op s t) (r : Result) (p : Phase) (l : Len)
    (c : CarrierWord) : TakenAs op s { t with result := r, phase := p, leff := l, ci := c } :=
  ⟨h.op_eq, h.cmdErr, h.capBits, h.capBytes, h.count, h.hdrLen, h.overage, h.acc, h.bitpos,
    ⟨h.config.1, h.config.2, h.config.3⟩,
    ⟨h.outside.1, h.outside.2, h.outside.3, h.outside.4, h.outside.5, h.outside.6⟩⟩

/-! STATUS. -/

/-- The STATUS word as a number (10_state.md R21). -/
theorem statusWord_toNat (s : State) :
    (statusWord s).toNat = s.op.toNat * 2 ^ 16 + s.cmdErr.toNat * 2 ^ 12 + s.result.code.toNat * 2 ^ 8
      + (confirmReq s).toNat * 2 ^ 5 + (busy s).toNat * 2 ^ 4 + s.phase.code.toNat := by
  have h0 := s.phase.code.isLt
  have h1 : (busy s).toNat < 2 ^ 1 := by cases busy s <;> decide
  have h2 : (confirmReq s).toNat < 2 ^ 1 := by cases confirmReq s <;> decide
  have h3 := s.result.code.isLt
  have h4 : s.cmdErr.toNat < 2 ^ 1 := by cases s.cmdErr <;> decide
  have h5 := s.op.isLt
  have z2 : (0 : BitVec 2).toNat = 0 := rfl
  have z3 : (0 : BitVec 3).toNat = 0 := rfl
  have z12 : (0 : BitVec 12).toNat = 0 := rfl
  simp only [statusWord, BitVec.toNat_append, BitVec.toNat_ofBool, z2, z3, z12, Nat.or_zero, Nat.zero_shiftLeft,
    Nat.zero_or]
  rw [← Nat.shiftLeft_add_eq_or_of_lt h0, ← Nat.shiftLeft_add_eq_or_of_lt h1, ← Nat.shiftLeft_add_eq_or_of_lt h2,
    ← Nat.shiftLeft_add_eq_or_of_lt h3, ← Nat.shiftLeft_add_eq_or_of_lt h4]
  simp only [Nat.shiftLeft_eq]
  omega

end Sys2Proof.Machine
end

