-- ==== Sys2Proof/Laws/Steps.lean ====
section
/-! SUPPORT. The steps: what each phase's step answers, and, once for each, everything it can do. -/

namespace Sys2Proof.Machine

/-- With no host access left the block takes its own step. -/
theorem step_quiet {s : State} (h : s.port = []) : step s = blockStep s := by
  simp [step, portStep, h]

/-- With a host access left that access is served. -/
theorem step_serve {s : State} {e : HostOp} {rest : List HostOp} (h : s.port = e :: rest) :
    step s = serve e { s with port := rest } := by
  simp [step, portStep, h]

/-! The block's own step by STATE (30_encoding.md R65). -/

theorem blockStep_idle {s : State} (h : s.phase = .idle) : blockStep s = .next s := by
  simp [blockStep, h, waitForHost]

theorem blockStep_done {s : State} (h : s.phase = .done) : blockStep s = .next s := by
  simp [blockStep, h, waitForHost]

theorem blockStep_confirmTruncation {s : State} (h : s.phase = .confirmTruncation) : blockStep s = .next s := by
  simp [blockStep, h, waitForHost]

theorem blockStep_readCapacity {s : State} (h : s.phase = .readCapacity) : blockStep s = stepReadCapacity s := by
  simp [blockStep, h]

theorem blockStep_awaitPayloadSize {s : State} (h : s.phase = .awaitPayloadSize) :
    blockStep s = .next (embedAwaitPayloadSize s) := by
  simp [blockStep, h]

theorem blockStep_writeHeader {s : State} (h : s.phase = .writeHeader) : blockStep s = stepWriteHeader s := by
  simp [blockStep, h]

theorem blockStep_writePayload {s : State} (h : s.phase = .writePayload) : blockStep s = stepWritePayload s := by
  simp [blockStep, h]

theorem blockStep_readHeader {s : State} (h : s.phase = .readHeader) : blockStep s = stepReadHeader s := by
  simp [blockStep, h]

theorem blockStep_readPayload {s : State} (h : s.phase = .readPayload) : blockStep s = stepReadPayload s := by
  simp [blockStep, h]

/-- A counter of 66 bits that is below a bound the width can hold goes up by one. -/
theorem toNat_succ {ci : CarrierWord} {n : Nat} (h : ci.toNat < n) (hn : n < 2 ^ 66) :
    (ci + 1).toNat = ci.toNat + 1 := by
  rw [BitVec.toNat_add]
  have : (1 : CarrierWord).toNat = 1 := rfl
  omega

theorem toNat_succ_of_lt {ci c : CarrierWord} (h : ci.toNat < c.toNat) : (ci + 1).toNat = ci.toNat + 1 :=
  toNat_succ h c.isLt

/-- BITPOS goes round after 7 (R89, R97). -/
theorem toNat_bitpos_succ (p : BitVec 3) : (p + 1).toNat = (p.toNat + 1) % 8 := by
  rw [BitVec.toNat_add]; rfl

/-! WRITE_HEADER (41_header.md R80). -/

theorem stepWriteHeader_exit {s : State} (h : s.ci.toNat = 32) :
    stepWriteHeader s =
      .next (if s.op = Config.opHdrenc then { s with phase := .done } else { s with phase := .writePayload }) := by
  simp only [stepWriteHeader, Config.headerBits, h, if_true]
  split <;> rfl

theorem stepWriteHeader_bit {s : State} (h : s.ci.toNat < 32) (hc : 32 ≤ s.capBits.toNat) :
    stepWriteHeader s = .next { s with
      mem := Memory.write s.mem s.ci.toNat
        (setLsb (Memory.read s.mem s.ci.toNat) (s.leff.getLsbD s.ci.toNat))
      ci := s.ci + 1 } := by
  simp only [stepWriteHeader, Config.headerBits, h, if_true, Nat.ne_of_lt h, if_false]
  rw [carSetLsb_of_lt (by omega)]

theorem stepWriteHeader_cases {s t : State} (h : stepWriteHeader s = .next t) :
    (s.ci.toNat = 32 ∧ s.op = Config.opHdrenc ∧ t = { s with phase := .done }) ∨
    (s.ci.toNat = 32 ∧ s.op ≠ Config.opHdrenc ∧ t = { s with phase := .writePayload }) ∨
    (s.ci.toNat < 32 ∧ s.ci.toNat < s.capBits.toNat ∧ t = { s with
      mem := Memory.write s.mem s.ci.toNat
        (setLsb (Memory.read s.mem s.ci.toNat) (s.leff.getLsbD s.ci.toNat))
      ci := s.ci + 1 }) := by
  simp only [stepWriteHeader, Config.headerBits] at h
  split at h
  · split at h <;> cases h
    · exact .inl ⟨‹_›, ‹_›, rfl⟩
    · exact .inr (.inl ⟨‹_›, ‹_›, rfl⟩)
  · split at h
    · split at h
      · cases h
      · rename_i u hu
        obtain ⟨hlt, rfl⟩ := carSetLsb_eq_some.1 hu
        cases h
        exact .inr (.inr ⟨‹_›, hlt, rfl⟩)
    · cases h

/-! READ_HEADER (41_header.md R84). -/

theorem stepReadHeader_exit {s : State} (h : s.ci.toNat = 32) :
    stepReadHeader s = .next (if s.op = Config.opHdrdec then { s with phase := .done }
      else { s with leff := s.hdrLen, phase := .readPayload }) := by
  simp only [stepReadHeader, Config.headerBits, h, if_true]
  split <;> rfl

theorem stepReadHeader_bit {s : State} (h : s.ci.toNat < 32) (hc : 32 ≤ s.capBits.toNat) :
    stepReadHeader s = .next { s with
      hdrLen := orBit s.hdrLen s.ci.toNat (lsb (Memory.read s.mem s.ci.toNat))
      ci := s.ci + 1 } := by
  simp only [stepReadHeader, Config.headerBits, h, if_true, Nat.ne_of_lt h, if_false]
  rw [carRead_of_lt (by omega)]

theorem stepReadHeader_cases {s t : State} (h : stepReadHeader s = .next t) :
    (s.ci.toNat = 32 ∧ s.op = Config.opHdrdec ∧ t = { s with phase := .done }) ∨
    (s.ci.toNat = 32 ∧ s.op ≠ Config.opHdrdec ∧ t = { s with leff := s.hdrLen, phase := .readPayload }) ∨
    (s.ci.toNat < 32 ∧ s.ci.toNat < s.capBits.toNat ∧ t = { s with
      hdrLen := orBit s.hdrLen s.ci.toNat (lsb (Memory.read s.mem s.ci.toNat))
      ci := s.ci + 1 }) := by
  simp only [stepReadHeader, Config.headerBits] at h
  split at h
  · split at h <;> cases h
    · exact .inl ⟨‹_›, ‹_›, rfl⟩
    · exact .inr (.inl ⟨‹_›, ‹_›, rfl⟩)
  · split at h
    · split at h
      · cases h
      · rename_i v hv
        obtain ⟨hlt, rfl⟩ := carRead_eq_some.1 hv
        cases h
        exact .inr (.inr ⟨‹_›, hlt, rfl⟩)
    · cases h

/-! The two tests of the payload phases. -/

theorem payloadComplete_iff {s : State} :
    payloadComplete s = true ↔ s.ci.toNat - 32 = 8 * s.leff.toNat := by
  simp [payloadComplete, Config.payloadStart, Config.bitsPerPayloadByte]

theorem carriersExhausted_iff {s : State} :
    carriersExhausted s = true ↔ s.capBits.toNat ≤ s.ci.toNat := by
  simp [carriersExhausted, BitVec.le_def]

/-! WRITE_PAYLOAD (42_packer.md R89). -/

/-- The state after a payload bit is written from ACC. -/
def wrotePayloadBit (s : State) (b : Bool) : State :=
  { s with
    mem := Memory.write s.mem s.ci.toNat (setLsb (Memory.read s.mem s.ci.toNat) b)
    ci := s.ci + 1
    bitpos := s.bitpos + 1 }

theorem stepWritePayload_end {s : State} (h32 : 32 ≤ s.ci.toNat)
    (h : s.ci.toNat - 32 = 8 * s.leff.toNat ∨ s.capBits.toNat ≤ s.ci.toNat) :
    stepWritePayload s = .next { s with count := s.leff, phase := .done } := by
  simp only [stepWritePayload, Config.payloadStart]
  rw [if_neg (by omega), if_pos]
  simpa [payloadComplete_iff, carriersExhausted_iff] using h

theorem stepWritePayload_held {s : State} (h32 : 32 ≤ s.ci.toNat)
    (h : s.ci.toNat - 32 ≠ 8 * s.leff.toNat) (hc : s.ci.toNat < s.capBits.toNat)
    (hp : s.bitpos = 0) (hs : s.src = []) : stepWritePayload s = .next s := by
  simp only [stepWritePayload, Config.payloadStart]
  rw [if_neg (by omega), if_neg (by simp [payloadComplete_iff, carriersExhausted_iff]; omega)]
  simp [loadAcc, hp, srcRead_eq_none.2 hs, held]

theorem stepWritePayload_first {s : State} {b : Byte} {rest : List Byte} (h32 : 32 ≤ s.ci.toNat)
    (h : s.ci.toNat - 32 ≠ 8 * s.leff.toNat) (hc : s.ci.toNat < s.capBits.toNat)
    (hp : s.bitpos = 0) (hs : s.src = b :: rest) :
    stepWritePayload s = .next (wrotePayloadBit { s with src := rest, acc := b } (b.getLsbD 0)) := by
  simp only [stepWritePayload, Config.payloadStart]
  rw [if_neg (by omega), if_neg (by simp [payloadComplete_iff, carriersExhausted_iff]; omega)]
  simp only [loadAcc, hp, if_true, srcRead_cons hs]
  rw [carSetLsb_of_lt (by exact hc)]
  simp [wrotePayloadBit]

theorem stepWritePayload_next {s : State} (h32 : 32 ≤ s.ci.toNat)
    (h : s.ci.toNat - 32 ≠ 8 * s.leff.toNat) (hc : s.ci.toNat < s.capBits.toNat) (hp : s.bitpos ≠ 0) :
    stepWritePayload s = .next (wrotePayloadBit s (s.acc.getLsbD s.bitpos.toNat)) := by
  simp only [stepWritePayload, Config.payloadStart]
  rw [if_neg (by omega), if_neg (by simp [payloadComplete_iff, carriersExhausted_iff]; omega)]
  simp only [loadAcc, hp, if_false]
  rw [carSetLsb_of_lt (by exact hc)]
  rfl

theorem stepWritePayload_cases {s t : State} (h : stepWritePayload s = .next t) :
    32 ≤ s.ci.toNat ∧
    (((s.ci.toNat - 32 = 8 * s.leff.toNat ∨ s.capBits.toNat ≤ s.ci.toNat)
        ∧ t = { s with count := s.leff, phase := .done }) ∨
     (s.ci.toNat - 32 ≠ 8 * s.leff.toNat ∧ s.ci.toNat < s.capBits.toNat ∧
       ((s.bitpos = 0 ∧ s.src = [] ∧ t = s) ∨
        (∃ b rest, s.bitpos = 0 ∧ s.src = b :: rest
          ∧ t = wrotePayloadBit { s with src := rest, acc := b } (b.getLsbD 0)) ∨
        (s.bitpos ≠ 0 ∧ t = wrotePayloadBit s (s.acc.getLsbD s.bitpos.toNat))))) := by
  by_cases h32 : s.ci.toNat < 32
  · simp [stepWritePayload, Config.payloadStart, h32] at h
  refine ⟨by omega, ?_⟩
  by_cases he : s.ci.toNat - 32 = 8 * s.leff.toNat ∨ s.capBits.toNat ≤ s.ci.toNat
  · rw [stepWritePayload_end (by omega) he] at h
    cases h
    exact .inl ⟨he, rfl⟩
  · have h1 : s.ci.toNat - 32 ≠ 8 * s.leff.toNat := fun h => he (.inl h)
    have h2 : s.ci.toNat < s.capBits.toNat := by omega
    refine .inr ⟨h1, h2, ?_⟩
    by_cases hp : s.bitpos = 0
    · cases hs : s.src with
      | nil =>
        rw [stepWritePayload_held (by omega) h1 h2 hp hs] at h
        cases h
        exact .inl ⟨hp, rfl, rfl⟩
      | cons b rest =>
        rw [stepWritePayload_first (by omega) h1 h2 hp hs] at h
        cases h
        exact .inr (.inl ⟨b, rest, hp, rfl, rfl⟩)
    · rw [stepWritePayload_next (by omega) h1 h2 hp] at h
      cases h
      exact .inr (.inr ⟨hp, rfl⟩)

/-! READ_PAYLOAD (43_unpacker.md R97). -/

/-- ACC with the bit of the carrier at CI or-ed in. -/
def nextAcc (s : State) : Byte :=
  accumulate s.acc s.bitpos (lsb (Memory.read s.mem s.ci.toNat))

theorem stepReadPayload_complete {s : State} (h32 : 32 ≤ s.ci.toNat)
    (h : s.ci.toNat - 32 = 8 * s.leff.toNat) :
    stepReadPayload s = .next { s with phase := .done } := by
  simp only [stepReadPayload, Config.payloadStart]
  rw [if_neg (by omega), if_pos (payloadComplete_iff.2 h)]

theorem stepReadPayload_exhausted {s : State} (h32 : 32 ≤ s.ci.toNat)
    (h : s.ci.toNat - 32 ≠ 8 * s.leff.toNat) (hc : s.capBits.toNat ≤ s.ci.toNat) :
    stepReadPayload s = .next (finish .incompleteExtraction s) := by
  simp only [stepReadPayload, Config.payloadStart]
  rw [if_neg (by omega), if_neg (by rwa [payloadComplete_iff]), if_pos (carriersExhausted_iff.2 hc)]

theorem stepReadPayload_bit {s : State} (h32 : 32 ≤ s.ci.toNat)
    (h : s.ci.toNat - 32 ≠ 8 * s.leff.toNat) (hc : s.ci.toNat < s.capBits.toNat) (hp : s.bitpos ≠ 7) :
    stepReadPayload s = .next { s with acc := nextAcc s, ci := s.ci + 1, bitpos := s.bitpos + 1 } := by
  simp only [stepReadPayload, Config.payloadStart]
  rw [if_neg (by omega), if_neg (by rwa [payloadComplete_iff]),
    if_neg (by rw [carriersExhausted_iff]; omega), carRead_of_lt hc]
  simp only [deliver, hp, if_false, nextAcc]

theorem stepReadPayload_byte {s : State} (h32 : 32 ≤ s.ci.toNat)
    (h : s.ci.toNat - 32 ≠ 8 * s.leff.toNat) (hc : s.ci.toNat < s.capBits.toNat) (hp : s.bitpos = 7)
    (hr : s.sinkReady = true) :
    stepReadPayload s = .next { s with
      sink := s.sink ++ [nextAcc s], count := s.count + 1, acc := 0, ci := s.ci + 1, bitpos := 0 } := by
  simp only [stepReadPayload, Config.payloadStart]
  rw [if_neg (by omega), if_neg (by rwa [payloadComplete_iff]),
    if_neg (by rw [carriersExhausted_iff]; omega), carRead_of_lt hc]
  simp only [deliver, hp, if_true, nextAcc, sinkWrite_ready hr]
  rfl

theorem stepReadPayload_held {s : State} (h32 : 32 ≤ s.ci.toNat)
    (h : s.ci.toNat - 32 ≠ 8 * s.leff.toNat) (hc : s.ci.toNat < s.capBits.toNat) (hp : s.bitpos = 7)
    (hr : s.sinkReady = false) : stepReadPayload s = .next s := by
  simp only [stepReadPayload, Config.payloadStart]
  rw [if_neg (by omega), if_neg (by rwa [payloadComplete_iff]),
    if_neg (by rw [carriersExhausted_iff]; omega), carRead_of_lt hc]
  simp only [deliver, hp, if_true, sinkWrite_eq_none.2 hr, held]

theorem stepReadPayload_cases {s t : State} (h : stepReadPayload s = .next t) :
    32 ≤ s.ci.toNat ∧
    ((s.ci.toNat - 32 = 8 * s.leff.toNat ∧ t = { s with phase := .done }) ∨
     (s.ci.toNat - 32 ≠ 8 * s.leff.toNat ∧ s.capBits.toNat ≤ s.ci.toNat
        ∧ t = finish .incompleteExtraction s) ∨
     (s.ci.toNat - 32 ≠ 8 * s.leff.toNat ∧ s.ci.toNat < s.capBits.toNat ∧
       ((s.bitpos ≠ 7 ∧ t = { s with acc := nextAcc s, ci := s.ci + 1, bitpos := s.bitpos + 1 }) ∨
        (s.bitpos = 7 ∧ s.sinkReady = true ∧ t = { s with
          sink := s.sink ++ [nextAcc s], count := s.count + 1, acc := 0, ci := s.ci + 1, bitpos := 0 }) ∨
        (s.bitpos = 7 ∧ s.sinkReady = false ∧ t = s)))) := by
  by_cases h32 : s.ci.toNat < 32
  · simp [stepReadPayload, Config.payloadStart, h32] at h
  refine ⟨by omega, ?_⟩
  by_cases h1 : s.ci.toNat - 32 = 8 * s.leff.toNat
  · rw [stepReadPayload_complete (by omega) h1] at h
    cases h
    exact .inl ⟨h1, rfl⟩
  by_cases h2 : s.capBits.toNat ≤ s.ci.toNat
  · rw [stepReadPayload_exhausted (by omega) h1 h2] at h
    cases h
    exact .inr (.inl ⟨h1, h2, rfl⟩)
  refine .inr (.inr ⟨h1, by omega, ?_⟩)
  by_cases hp : s.bitpos = 7
  · by_cases hr : s.sinkReady = true
    · rw [stepReadPayload_byte (by omega) h1 (by omega) hp hr] at h
      cases h
      exact .inr (.inl ⟨hp, hr, rfl⟩)
    · have hr : s.sinkReady = false := by simpa using hr
      rw [stepReadPayload_held (by omega) h1 (by omega) hp hr] at h
      cases h
      exact .inr (.inr ⟨hp, hr, rfl⟩)
  · rw [stepReadPayload_bit (by omega) h1 (by omega) hp] at h
    cases h
    exact .inl ⟨hp, rfl⟩

/-! Runs. -/

@[simp] theorem run_zero (s : State) : run 0 s = .next s := rfl

theorem run_succ {s t : State} (h : step s = .next t) (k : Nat) : run (k + 1) s = run k t := by
  simp [run, h]

/-- A run in two parts. -/
theorem run_add {s t : State} {j : Nat} (h : run j s = .next t) (k : Nat) : run (j + k) s = run k t := by
  induction j generalizing s with
  | zero => cases h; rw [Nat.zero_add]
  | succ j ih =>
    cases hs : step s with
    | next u =>
      rw [run_succ hs] at h
      rw [Nat.succ_add, run_succ hs, ih h]
    | fault r => simp [run, hs] at h
    | refused r => simp [run, hs] at h

/-- Every state of a run from a reachable state is reachable. -/
theorem Reachable.run {s t : State} (hs : Reachable s) {k : Nat} (h : Machine.run k s = .next t) : Reachable t := by
  induction k generalizing s with
  | zero => cases h; exact hs
  | succ k ih =>
    cases hst : Machine.step s with
    | next u => rw [run_succ hst] at h; exact ih (.step s u hs hst) h
    | fault r => simp [Machine.run, hst] at h
    | refused r => simp [Machine.run, hst] at h

end Sys2Proof.Machine
end

