-- ==== Sys2Proof/Laws/Machine.lean ====
section
/-! SUPPORT. The whole step, said once: everything that can happen in it, and what the parts of it leave alone.
A rule about all steps is a case analysis on `StepCase`. -/

namespace Sys2Proof.Machine

/-- The ways in which a step from `s` can answer `t`. -/
inductive StepCase (s t : State) : Prop where
  /-- The block's own step: nothing on the port, the host standing by, or the host waiting. -/
  | own (p : List HostOp)
      (how : (p = s.port ∧ (p = [] ∨ ∃ r, p = .wait :: r)) ∨ s.port = .idle :: p)
      (h : blockStep { s with port := p } = .next t)
  /-- A command: its word written to CMD, or the open question answered. -/
  | command (i : Instr) (rest : List HostOp)
      (how : (∃ c, s.port = .write Config.regCmd c :: rest ∧ decode c = .ok i) ∨
        (∃ y, s.port = .answer y :: rest ∧ confirmReq s = true ∧ i = answerCommand y))
      (h : exec i { s with port := rest } = .next t)
  /-- An illegal word written to CMD. -/
  | illegal (c : CmdWord) (rest : List HostOp) (how : s.port = .write Config.regCmd c :: rest)
      (e : DecodeError) (bad : decode c = .error e)
      (h : t = commandIllegal (c.extractLsb' 0 4) { s with port := rest })
  /-- Another register written. -/
  | register (n : RegNum) (v : CmdWord) (rest : List HostOp) (how : s.port = .write n v :: rest)
      (other : n ≠ Config.regCmd) (h : t = writeReg n v { s with port := rest })
  /-- Something that touches the host's own side and the streams' readiness only. -/
  | outside (e : HostOp) (rest : List HostOp) (how : s.port = e :: rest)
      (kind : e ≠ .idle ∧ e ≠ .reset ∧ (∀ n v, e ≠ .write n v) ∧ (∀ ci v, e ≠ .putCarrier ci v))
      (source : t.src = s.src ∨ ∃ b, e = .offer b)
      (ready : t.sinkReady = s.sinkReady ∨ ∃ r, e = .setSinkReady r)
      (h : t = { s with port := rest, src := t.src, sinkReady := t.sinkReady, seen := t.seen })
  /-- A carrier byte placed by the host. -/
  | placed (ci : CarrierWord) (v : Byte) (rest : List HostOp) (how : s.port = .putCarrier ci v :: rest)
      (free : busy s = false) (h : t = { s with port := rest, mem := Memory.write s.mem ci.toNat v })
  /-- Reset. -/
  | reset (rest : List HostOp) (how : s.port = .reset :: rest) (h : t = resetBlock { s with port := rest })

/-- A write of a legal word to CMD is its command. -/
theorem writeCmd_ok {c : CmdWord} {i : Instr} (h : decode c = .ok i) (s : State) : writeCmd c s = exec i s := by
  simp [writeCmd, h]

theorem writeCmd_error {c : CmdWord} {e : DecodeError} (h : decode c = .error e) (s : State) :
    writeCmd c s = .next (commandIllegal (c.extractLsb' 0 4) s) := by
  simp [writeCmd, h]

/-- The words the host writes for an answer are the two CONFIRM words. -/
theorem decode_answer (y : Bool) : decode (encode (answerCommand y)) = .ok (answerCommand y) := by
  cases y <;> decide

/-- The step when the host writes CMD next. -/
theorem step_write {s : State} {c : CmdWord} {rest : List HostOp} (h : s.port = .write Config.regCmd c :: rest) :
    step s = writeCmd c { s with port := rest } := by
  rw [step_serve h]; simp [serve, hostWrite]

/-- The step when the host writes another register next. -/
theorem step_writeReg {s : State} {n : RegNum} {v : CmdWord} {rest : List HostOp} (h : s.port = .write n v :: rest)
    (hn : n ≠ Config.regCmd) : step s = .next (writeReg n v { s with port := rest }) := by
  rw [step_serve h]
  simp only [serve, hostWrite]
  rw [if_neg hn]

/-- Register numbers are compared by value. -/
theorem regNum_eq_iff {n : RegNum} {k : Nat} (hk : k < 256) : n = BitVec.ofNat 8 k ↔ n.toNat = k := by
  rw [← BitVec.toNat_inj, BitVec.toNat_ofNat, Nat.mod_eq_of_lt hk]

/-! STATUS does not depend on the port. -/

@[simp] theorem busy_port (s : State) (p : List HostOp) : busy { s with port := p } = busy s := rfl

@[simp] theorem confirmReq_port (s : State) (p : List HostOp) : confirmReq { s with port := p } = confirmReq s := rfl

/-- Everything a step can do. -/
theorem step_cases {s t : State} (h : step s = .next t) : StepCase s t := by
  cases hp : s.port with
  | nil =>
    rw [step_quiet hp] at h
    exact .own s.port (.inl ⟨rfl, .inl hp⟩) h
  | cons e rest =>
    rw [step_serve hp] at h
    cases e with
    | idle => exact .own rest (.inr hp) h
    | write n v =>
      simp only [serve, hostWrite] at h
      split at h
      · subst n
        cases hd : decode v with
        | ok i => rw [writeCmd_ok hd] at h; exact .command i rest (.inl ⟨v, hp, hd⟩) h
        | error e => rw [writeCmd_error hd] at h; cases h; exact .illegal v rest hp e hd rfl
      · cases h; exact .register n v rest hp ‹_› rfl
    | read n => cases h; exact .outside _ rest hp (by simp) (.inl rfl) (.inl rfl) rfl
    | wait =>
      simp only [serve] at h
      split at h
      · cases h; exact .outside _ rest hp (by simp) (.inl rfl) (.inl rfl) rfl
      · refine .own s.port (.inl ⟨rfl, .inr ⟨rest, hp⟩⟩) ?_
        simpa [hp] using h
    | answer y =>
      simp only [serve] at h
      split at h
      · rw [writeCmd_ok (decode_answer y)] at h
        exact .command _ rest (.inr ⟨y, hp, ‹_›, rfl⟩) h
      · cases h; exact .outside _ rest hp (by simp) (.inl rfl) (.inl rfl) rfl
    | reset => cases h; exact .reset rest hp rfl
    | offer b => cases h; exact .outside _ rest hp (by simp) (.inr ⟨b, rfl⟩) (.inl rfl) rfl
    | setSinkReady r => cases h; exact .outside _ rest hp (by simp) (.inl rfl) (.inr ⟨r, rfl⟩) rfl
    | putCarrier ci v =>
      simp only [serve] at h
      split at h
      · cases h
      · cases h; exact .placed ci v rest hp (Bool.eq_false_iff.2 ‹_›) rfl
    | getCarrier ci =>
      simp only [serve] at h
      split at h
      · cases h
      · cases h; exact .outside _ rest hp (by simp) (.inl rfl) (.inl rfl) rfl

/-- What taking each of the seven commands of R62 does; CONFIRM is not one of them. -/
def startOf : Instr → Option (State → State)
  | .cap => some startCap
  | .hdrenc => some startHdrenc
  | .hdrdec => some startHdrdec
  | .pack => some startPack
  | .unpack => some startUnpack
  | .embed => some startEmbed
  | .extract => some startExtract
  | .confirmNo => none
  | .confirmYes => none

theorem exec_start {i : Instr} {start : State → State} (h : startOf i = some start) (s : State) :
    exec i s = .next (commandWith start s) := by
  cases i <;> cases h <;> rfl

/-- Everything a command can do: turned away while busy, CONFIRM with no question open, taken, or the question
answered. -/
theorem exec_cases {i : Instr} {s t : State} (h : exec i s = .next t) :
    (busy s = true ∧ (confirmReq s = false ∨ (i ≠ .confirmNo ∧ i ≠ .confirmYes)) ∧ t = turnAway s) ∨
    (busy s = false ∧ (i = .confirmNo ∨ i = .confirmYes) ∧ t = takeIllegal Config.opConfirm s) ∨
    (busy s = false ∧ ∃ start, startOf i = some start ∧ t = start s) ∨
    (confirmReq s = true ∧ i = .confirmNo ∧ t = declineTruncation s) ∨
    (confirmReq s = true ∧ i = .confirmYes ∧ t = acceptTruncation s) := by
  have taken {start : State → State} (hs : startOf i = some start)
      (hi : i ≠ .confirmNo ∧ i ≠ .confirmYes) :
      (busy s = true ∧ (confirmReq s = false ∨ (i ≠ .confirmNo ∧ i ≠ .confirmYes)) ∧ t = turnAway s) ∨
      (busy s = false ∧ ∃ start, startOf i = some start ∧ t = start s) := by
    rw [exec_start hs] at h
    cases h
    cases hb : busy s with
    | true => exact .inl ⟨rfl, .inr hi, commandWith_busy hb _⟩
    | false => exact .inr ⟨rfl, start, hs, commandWith_ready hb _⟩
  have asked {f : State → State} (hf : exec i s = .next (confirmWith f s)) :
      (busy s = true ∧ confirmReq s = false ∧ t = turnAway s) ∨
      (busy s = false ∧ t = takeIllegal Config.opConfirm s) ∨ (confirmReq s = true ∧ t = f s) := by
    rw [hf] at h
    cases h
    cases hq : confirmReq s with
    | true => exact .inr (.inr ⟨rfl, confirmWith_asked hq _⟩)
    | false =>
      rw [confirmWith_unasked hq, commandIllegal]
      cases hb : busy s with
      | true => exact .inl ⟨rfl, rfl, rfl⟩
      | false => exact .inr (.inl ⟨rfl, rfl⟩)
  cases i with
  | confirmNo =>
    obtain ⟨h1, h2, h3⟩ | ⟨h1, h2⟩ | ⟨h1, h2⟩ := asked (f := declineTruncation) rfl
    · exact .inl ⟨h1, .inl h2, h3⟩
    · exact .inr (.inl ⟨h1, .inl rfl, h2⟩)
    · exact .inr (.inr (.inr (.inl ⟨h1, rfl, h2⟩)))
  | confirmYes =>
    obtain ⟨h1, h2, h3⟩ | ⟨h1, h2⟩ | ⟨h1, h2⟩ := asked (f := acceptTruncation) rfl
    · exact .inl ⟨h1, .inl h2, h3⟩
    · exact .inr (.inl ⟨h1, .inr rfl, h2⟩)
    · exact .inr (.inr (.inr (.inr ⟨h1, rfl, h2⟩)))
  | cap => exact (taken rfl (by decide)).imp_right fun h => .inr (.inl h)
  | hdrenc => exact (taken rfl (by decide)).imp_right fun h => .inr (.inl h)
  | hdrdec => exact (taken rfl (by decide)).imp_right fun h => .inr (.inl h)
  | pack => exact (taken rfl (by decide)).imp_right fun h => .inr (.inl h)
  | unpack => exact (taken rfl (by decide)).imp_right fun h => .inr (.inl h)
  | embed => exact (taken rfl (by decide)).imp_right fun h => .inr (.inl h)
  | extract => exact (taken rfl (by decide)).imp_right fun h => .inr (.inl h)

/-- Taking a command does what R62 says of it, and R63 leaves it in one of these states. -/
theorem start_takenAs {i : Instr} {start : State → State} (h : startOf i = some start) (s : State) :
    TakenAs i.fields.opc s (start s) ∧ (start s).phase ≠ .idle ∧ (start s).phase ≠ .awaitPayloadSize ∧
      (start s).phase ≠ .confirmTruncation := by
  have hc : ∀ op, (take op s).capBits.toNat = 3 * s.width.toNat * s.height.toNat :=
    fun op => (take_takenAs op s).capBits
  have hu {op : BitVec 4} {t : State} (ht : TakenAs op s t ∧ t.phase ≠ .idle ∧ t.phase ≠ .awaitPayloadSize ∧
      t.phase ≠ .confirmTruncation) :
      TakenAs op s (unlessUndersized (take op s) t) ∧ (unlessUndersized (take op s) t).phase ≠ .idle ∧
        (unlessUndersized (take op s) t).phase ≠ .awaitPayloadSize ∧
        (unlessUndersized (take op s) t).phase ≠ .confirmTruncation := by
    rcases Nat.lt_or_ge (take op s).capBits.toNat 32 with h | h
    · rw [unlessUndersized_small h]
      exact ⟨(take_takenAs op s).first_state .undersizedCarrier .done _ _, by simp⟩
    · rw [unlessUndersized_big h]; exact ht
  cases i <;> cases h
  · exact ⟨(take_takenAs _ s).first_state _ .readCapacity _ _, by simp [startCap]⟩
  · exact hu ⟨(take_takenAs _ s).first_state _ .writeHeader s.plen _, by simp⟩
  · exact hu ⟨(take_takenAs _ s).first_state _ .readHeader _ _, by simp⟩
  · exact hu ⟨(take_takenAs _ s).first_state _ .writePayload s.plen _, by simp⟩
  · exact hu ⟨(take_takenAs _ s).first_state _ .readPayload s.plen _, by simp⟩
  · exact ⟨(take_takenAs _ s).first_state _ .readCapacity _ _, by simp [startEmbed]⟩
  · exact hu ⟨(take_takenAs _ s).first_state _ .readHeader _ _, by simp⟩

/-- Every command has a next state. -/
theorem exec_next (i : Instr) (s : State) : ∃ t, exec i s = .next t := by
  cases i <;> exact ⟨_, rfl⟩

/-- What a step of the block leaves alone: configuration, CMD_ERR, OP, the capacity and the host's side. -/
structure OwnFrame (s t : State) : Prop where
  config : SameConfig s t
  cmdErr : t.cmdErr = s.cmdErr
  op : t.op = s.op
  capBits : t.capBits = s.capBits
  capBytes : t.capBytes = s.capBytes
  sinkReady : t.sinkReady = s.sinkReady
  port : t.port = s.port
  seen : t.seen = s.seen

theorem blockStep_frame {s t : State} (h : blockStep s = .next t) : OwnFrame s t := by
  have refl : OwnFrame s s := ⟨⟨rfl, rfl, rfl⟩, rfl, rfl, rfl, rfl, rfl, rfl, rfl⟩
  cases hp : s.phase with
  | idle => rw [blockStep_idle hp] at h; cases h; exact refl
  | done => rw [blockStep_done hp] at h; cases h; exact refl
  | confirmTruncation => rw [blockStep_confirmTruncation hp] at h; cases h; exact refl
  | readCapacity =>
    rw [blockStep_readCapacity hp] at h
    simp only [stepReadCapacity, capReady, embedReadCapacity, unlessUndersized, finish] at h
    split at h
    · cases h; exact ⟨⟨rfl, rfl, rfl⟩, rfl, rfl, rfl, rfl, rfl, rfl, rfl⟩
    · split at h
      · cases h; split <;> exact ⟨⟨rfl, rfl, rfl⟩, rfl, rfl, rfl, rfl, rfl, rfl, rfl⟩
      · cases h
  | awaitPayloadSize =>
    rw [blockStep_awaitPayloadSize hp] at h
    simp only [embedAwaitPayloadSize] at h
    cases h; split <;> exact ⟨⟨rfl, rfl, rfl⟩, rfl, rfl, rfl, rfl, rfl, rfl, rfl⟩
  | writeHeader =>
    rw [blockStep_writeHeader hp] at h
    obtain ⟨-, -, rfl⟩ | ⟨-, -, rfl⟩ | ⟨-, -, rfl⟩ := stepWriteHeader_cases h <;>
      exact ⟨⟨rfl, rfl, rfl⟩, rfl, rfl, rfl, rfl, rfl, rfl, rfl⟩
  | readHeader =>
    rw [blockStep_readHeader hp] at h
    obtain ⟨-, -, rfl⟩ | ⟨-, -, rfl⟩ | ⟨-, -, rfl⟩ := stepReadHeader_cases h <;>
      exact ⟨⟨rfl, rfl, rfl⟩, rfl, rfl, rfl, rfl, rfl, rfl, rfl⟩
  | writePayload =>
    rw [blockStep_writePayload hp] at h
    obtain ⟨-, ⟨-, rfl⟩ | ⟨-, -, ⟨-, -, rfl⟩ | ⟨b, rest, -, -, rfl⟩ | ⟨-, rfl⟩⟩⟩ :=
      stepWritePayload_cases h <;>
      exact ⟨⟨rfl, rfl, rfl⟩, rfl, rfl, rfl, rfl, rfl, rfl, rfl⟩
  | readPayload =>
    rw [blockStep_readPayload hp] at h
    obtain ⟨-, ⟨-, rfl⟩ | ⟨-, -, rfl⟩ | ⟨-, -, ⟨-, rfl⟩ | ⟨-, -, rfl⟩ | ⟨-, -, rfl⟩⟩⟩ :=
      stepReadPayload_cases h <;>
      exact ⟨⟨rfl, rfl, rfl⟩, rfl, rfl, rfl, rfl, rfl, rfl, rfl⟩

end Sys2Proof.Machine
end

