-- ==== Sys2Proof/Laws/Invariant.lean ====
section
/-! SUPPORT. The invariant of Safety.lean under the changes that do not start or move an operation: it is kept by
whatever leaves the block's own registers alone, by a refused access, by an illegal command and by reset. -/

namespace Sys2Proof.Machine

/-- Two states with the same block, apart from CMD_ERR, the configuration registers and the outside. -/
structure SameBlock (s t : State) : Prop where
  phase : t.phase = s.phase
  result : t.result = s.result
  op : t.op = s.op
  capBits : t.capBits = s.capBits
  capBytes : t.capBytes = s.capBytes
  leff : t.leff = s.leff
  hdrLen : t.hdrLen = s.hdrLen
  count : t.count = s.count
  ci : t.ci = s.ci
  overage : t.overage = s.overage
  acc : t.acc = s.acc
  bitpos : t.bitpos = s.bitpos

theorem Cleared.same {s t : State} (h : SameBlock s t) (e : Cleared s) : Cleared t :=
  ⟨h.ci.trans e.1, h.count.trans e.2, h.hdrLen.trans e.3, h.leff.trans e.4, h.overage.trans e.5,
    h.acc.trans e.6, h.bitpos.trans e.7⟩

theorem PayloadProgress.same {s t : State} (h : SameBlock s t) (e : PayloadProgress s) : PayloadProgress t :=
  ⟨by rw [h.ci]; exact e.1, by rw [h.ci, h.capBits]; exact e.2, by rw [h.ci, h.leff]; exact e.3,
    by rw [h.bitpos, h.ci]; exact e.4⟩

/-- The invariant does not see the outside, nor, while no operation runs, the configuration registers. -/
theorem Inv.same {s t : State} (hi : Inv s) (h : SameBlock s t) (hm : Memory.wf t.mem)
    (hc : busy s = true → SameConfig s t) (he : s.phase = .idle → t.cmdErr = s.cmdErr) : Inv t := by
  obtain ⟨h1, h2, h3, h4, h5, h6, h7⟩ := hi
  have hb : busy t = busy s := by unfold busy; rw [h.phase]
  refine ⟨hm, by rw [h.capBits]; exact h2, by rw [h.capBits, h.capBytes]; exact h3,
    by rw [h.ci, h.capBits]; exact h4, by rw [h.count, h.leff]; exact h5, ?_, ?_⟩
  · intro hb'; rw [hb] at hb'
    rw [h.result, h.capBits, (hc hb').1, (hc hb').2]; exact h6 hb'
  · unfold PhaseInv at *
    obtain ⟨q, hq⟩ : ∃ q, s.phase = q := ⟨_, rfl⟩
    have hq' := h.phase; rw [hq] at hq'
    rw [hq] at h7
    simp only [hq']
    cases q <;> simp only at h7 ⊢
    · obtain ⟨a, b, c, d, e⟩ := h7
      exact ⟨h.op.trans a, h.result.trans b, (he hq).trans c, h.capBits.trans d, e.same h⟩
    · exact ⟨by rw [h.op]; exact h7.1, h7.2.same h⟩
    · exact ⟨h.op.trans h7.1, by rw [h.capBits]; exact h7.2.1, h7.2.2.same h⟩
    · have hp := hc (by simp [busy, hq])
      rw [h.op, h.capBits, h.capBytes, h.overage, h.ci, h.count, h.hdrLen, h.leff, h.acc, h.bitpos, hp.plen]
      exact h7
    · have hp := hc (by simp [busy, hq])
      unfold EmbedLength at *
      rw [h.op, h.capBits, h.capBytes, h.ci, h.count, h.hdrLen, h.leff, h.acc, h.bitpos, hp.plen]; exact h7
    · have hp := hc (by simp [busy, hq])
      unfold EmbedLength at *
      obtain ⟨a, b, c⟩ := h7
      refine ⟨by rw [h.op]; exact a, b.same h, ?_⟩
      rw [h.op, h.capBytes, h.count, h.hdrLen, h.leff, hp.plen]; exact c
    · rw [h.op, h.capBits, h.ci, h.count, h.hdrLen, h.leff, h.acc, h.bitpos]; exact h7
    · have hp := hc (by simp [busy, hq])
      obtain ⟨a, b, c⟩ := h7
      refine ⟨by rw [h.op]; exact a, b.same h, ?_⟩
      rw [h.op, h.count, h.ci, h.acc, h.bitpos, h.hdrLen, h.leff, hp.plen]; exact c
    · unfold Ended at *
      obtain ⟨r, hr⟩ : ∃ r, s.result = r := ⟨_, rfl⟩
      rw [hr] at h7
      simp only [h.result, hr]
      cases r <;> simp only at h7 ⊢
      · unfold EndedOk at *
        rw [h.op, h.capBits, h.ci, h.count, h.hdrLen, h.leff]
        obtain ⟨a, e⟩ | h' := h7
        · exact .inl ⟨a, e.same h⟩
        · exact .inr h'
      · rw [h.op, h.capBits, h.ci, h.count, h.hdrLen, h.leff, h.overage]; exact h7
      · rw [h.op, h.capBits, h.ci, h.count, h.hdrLen, h.leff]; exact h7
      · rw [h.op, h.capBits]
        exact ⟨h7.1, h7.2.1, h7.2.2.same h⟩

/-- What the host is going to do is not the block's. -/
theorem Inv.port {s : State} (h : Inv s) (p : List HostOp) : Inv { s with port := p } :=
  h.same ⟨rfl, rfl, rfl, rfl, rfl, rfl, rfl, rfl, rfl, rfl, rfl, rfl⟩ h.1
    (fun _ => ⟨rfl, rfl, rfl⟩) (fun _ => rfl)

theorem Inv.turnAway {s : State} (h : Inv s) (hb : busy s = true) : Inv (Machine.turnAway s) :=
  h.same ⟨rfl, rfl, rfl, rfl, rfl, rfl, rfl, rfl, rfl, rfl, rfl, rfl⟩ h.1
    (fun _ => ⟨rfl, rfl, rfl⟩)
    (fun hi => absurd hi (busy_eq_true.1 hb).1)

theorem Inv.takeIllegal {s : State} (h : Inv s) (opc : BitVec 4) : Inv (Machine.takeIllegal opc s) :=
  ⟨h.1, h.2, h.3, h.4, h.5, fun hb => by simp [busy] at hb, by simp [PhaseInv, Ended]⟩

theorem Inv.resetBlock {s : State} (h : Inv s) : Inv (Machine.resetBlock s) := by
  constructor
  · exact h.1
  · simp
  · simp
  · simp
  · simp
  · intro hb; simp [busy] at hb
  · exact ⟨rfl, rfl, rfl, rfl, ⟨rfl, rfl, rfl, rfl, rfl, rfl, rfl⟩⟩

theorem Inv.writeReg {s : State} (h : Inv s) (n : RegNum) (v : CmdWord) : Inv (Machine.writeReg n v s) := by
  unfold Machine.writeReg
  split
  · split
    · exact h.turnAway ‹_›
    · have hb : ¬ busy s = true := ‹_›
      have keep {t : State} (e : SameBlock s t) (hm : t.mem = s.mem) (hc : t.cmdErr = s.cmdErr) : Inv t :=
        h.same e (hm ▸ h.1) (fun hb' => absurd hb' hb) (fun _ => hc)
      split
      · exact keep ⟨rfl, rfl, rfl, rfl, rfl, rfl, rfl, rfl, rfl, rfl, rfl, rfl⟩ rfl rfl
      · split
        · exact keep ⟨rfl, rfl, rfl, rfl, rfl, rfl, rfl, rfl, rfl, rfl, rfl, rfl⟩ rfl rfl
        · exact keep ⟨rfl, rfl, rfl, rfl, rfl, rfl, rfl, rfl, rfl, rfl, rfl, rfl⟩ rfl rfl
  · exact h

end Sys2Proof.Machine
end

