-- ==== Sys2Proof/Laws/Loops.lean ====
section
/-! SUPPORT. The four loops of the block, each said once for any number of its steps: the header written and
read (41_header.md R80, R84), the payload written and read (42_packer.md R89, 43_unpacker.md R97). -/

namespace Sys2Proof.Machine

/-- The host leaves the block to its own steps: it has nothing left to do, or it waits (30_encoding.md R67). -/
def Unattended (s : State) : Prop := s.port = [] ∨ ∃ rest, s.port = .wait :: rest

theorem unattended_congr {s t : State} (h : Unattended s) (hp : t.port = s.port) : Unattended t := by
  unfold Unattended; rw [hp]; exact h

/-- While an operation runs unattended, the step is the block's own. -/
theorem step_unattended {s : State} (h : Unattended s) (hb : busy s = true) (hq : confirmReq s = false) :
    step s = blockStep s := by
  rcases h with h | ⟨rest, h⟩
  · exact step_quiet h
  · rw [step_serve h, serve]
    simp only [waitOver, busy_port, confirmReq_port, hb, hq]
    simp [← h]

/-- A wait ends when the operation has, or when the question is open. -/
theorem step_wait_over {s : State} {rest : List HostOp} (h : s.port = .wait :: rest)
    (hw : waitOver s = true) : step s = .next { s with port := rest } := by
  have hw' : waitOver { s with port := rest } = true := hw
  rw [step_serve h, serve, if_pos hw']

/-- One step of a phase in which the block works on its own. -/
theorem step_of_phase {s : State} {p : Phase} (h : Unattended s) (hp : s.phase = p)
    (hw : p ≠ .idle ∧ p ≠ .done ∧ p ≠ .confirmTruncation) : step s = blockStep s :=
  step_unattended h (busy_eq_true.2 ⟨hp ▸ hw.1, hp ▸ hw.2.1⟩)
    (Bool.eq_false_iff.2 fun e => hw.2.2 (hp ▸ confirmReq_eq_true.1 e))

/-- WRITE_HEADER from carrier CI to carrier 31. -/
theorem run_writeHeader {k : Nat} : ∀ {s : State}, Unattended s → s.phase = .writeHeader → Memory.wf s.mem →
    32 ≤ s.capBits.toNat → s.ci.toNat + k = 32 →
    ∃ t, run k s = .next t ∧ t.ci.toNat = 32 ∧ Memory.wf t.mem ∧
      (∀ a, Memory.read t.mem a =
        if s.ci.toNat ≤ a ∧ a < 32 then setLsb (Memory.read s.mem a) (s.leff.getLsbD a)
        else Memory.read s.mem a) ∧
      t = { s with ci := t.ci, mem := t.mem } := by
  induction k with
  | zero =>
    intro s _ _ hm _ hk
    exact ⟨s, rfl, hk, hm, fun a => by rw [if_neg (by omega)], rfl⟩
  | succ k ih =>
    intro s hu hp hm hc hk
    have hs := step_of_phase hu hp (by decide)
    rw [blockStep_writeHeader hp, stepWriteHeader_bit (by omega) hc] at hs
    have hci := toNat_succ (ci := s.ci) (n := 32) (by omega) (by omega)
    obtain ⟨u, hus, hue⟩ : ∃ u, step s = .next u ∧ u = _ := ⟨_, hs, rfl⟩
    obtain ⟨t, ht, hti, htm, hta, hte⟩ := ih (s := u) (unattended_congr hu (by rw [hue])) (by rw [hue]; exact hp)
      (by rw [hue]; exact Memory.wf_write hm) (by rw [hue]; exact hc) (by rw [hue]; simp only [hci]; omega)
    refine ⟨t, by rw [run_succ hus, ht], hti, htm, fun a => ?_, by rw [hte, hue]⟩
    rw [hta a, hue]
    simp only [read_carSetLsb hm, hci]
    grind

/-- READ_HEADER from carrier CI to carrier 31. -/
theorem run_readHeader {k : Nat} : ∀ {s : State}, Unattended s → s.phase = .readHeader →
    32 ≤ s.capBits.toNat → s.ci.toNat + k = 32 →
    ∃ t, run k s = .next t ∧ t.ci.toNat = 32 ∧
      (∀ i, t.hdrLen.getLsbD i =
        (s.hdrLen.getLsbD i ||
          (decide (s.ci.toNat ≤ i ∧ i < 32) && (Memory.read s.mem i).getLsbD 0))) ∧
      t = { s with ci := t.ci, hdrLen := t.hdrLen } := by
  induction k with
  | zero =>
    intro s _ _ _ hk
    exact ⟨s, rfl, hk, fun i => by rw [decide_eq_false (by omega)]; simp, rfl⟩
  | succ k ih =>
    intro s hu hp hc hk
    have hs := step_of_phase hu hp (by decide)
    rw [blockStep_readHeader hp, stepReadHeader_bit (by omega) hc] at hs
    have hci := toNat_succ (ci := s.ci) (n := 32) (by omega) (by omega)
    obtain ⟨u, hus, hue⟩ : ∃ u, step s = .next u ∧ u = _ := ⟨_, hs, rfl⟩
    obtain ⟨t, ht, hti, hta, hte⟩ := ih (s := u) (unattended_congr hu (by rw [hue])) (by rw [hue]; exact hp)
      (by rw [hue]; exact hc) (by rw [hue]; simp only [hci]; omega)
    refine ⟨t, by rw [run_succ hus, ht], hti, fun i => ?_, by rw [hte, hue]⟩
    rw [hta i, hue]
    simp only [getLsbD_orBit _ _ _ _ (show s.ci.toNat < 32 by omega), hci, lsb]
    grind

/-- Bit `i` of the payload whose bytes are `bytes`, byte by byte and least significant bit first (20_memory.md
R44, R45). -/
def payloadBit (bytes : List Byte) (i : Nat) : Bool := (bytes.getD (i / 8) 0).getLsbD (i % 8)

/-- Where the packer stands after `m` bits of `bytes`: what is left in the source, and the byte in ACC while one
is half done. -/
structure Packing (bytes : List Byte) (m : Nat) (s : State) : Prop where
  phase : s.phase = .writePayload
  mem_wf : Memory.wf s.mem
  ci : s.ci.toNat = 32 + m
  bitpos : s.bitpos.toNat = m % 8
  src : s.src = bytes.drop ((m + 7) / 8)
  acc : m % 8 ≠ 0 → s.acc = bytes.getD (m / 8) 0

/-- WRITE_PAYLOAD for `k` more bits, with all the bytes they need in the source. -/
theorem run_writePayload {bytes : List Byte} {k : Nat} : ∀ {s : State} {m : Nat}, Unattended s →
    Packing bytes m s → m + k ≤ 8 * s.leff.toNat → 32 + m + k ≤ s.capBits.toNat →
    (m + k + 7) / 8 ≤ bytes.length →
    ∃ t, run k s = .next t ∧ Packing bytes (m + k) t ∧
      (∀ a, Memory.read t.mem a =
        if 32 + m ≤ a ∧ a < 32 + m + k then setLsb (Memory.read s.mem a) (payloadBit bytes (a - 32))
        else Memory.read s.mem a) ∧
      t = { s with ci := t.ci, bitpos := t.bitpos, mem := t.mem, acc := t.acc, src := t.src } := by
  induction k with
  | zero =>
    intro s m _ h _ _ _
    exact ⟨s, rfl, h, fun a => by rw [if_neg (by omega)], rfl⟩
  | succ k ih =>
    intro s m hu h hl hc hb
    have hs := step_of_phase hu h.phase (by decide)
    rw [blockStep_writePayload h.phase] at hs
    have hlt : s.ci.toNat < s.capBits.toNat := by rw [h.ci]; omega
    have hci : (s.ci + 1).toNat = 32 + (m + 1) := by rw [toNat_succ_of_lt hlt, h.ci]; omega
    have hbp : (s.bitpos + 1).toNat = (m + 1) % 8 := by rw [toNat_bitpos_succ, h.bitpos]; omega
    have hlen : m / 8 < bytes.length := by omega
    -- one bit, then the rest
    have go : ∀ (x : State) (b : Bool), stepWritePayload s = .next (wrotePayloadBit x b) →
        x = { s with acc := x.acc, src := x.src } → b = payloadBit bytes m →
        x.acc = bytes.getD (m / 8) 0 → x.src = bytes.drop ((m + 8) / 8) →
        ∃ t, run (k + 1) s = .next t ∧ Packing bytes (m + (k + 1)) t ∧
          (∀ a, Memory.read t.mem a =
            if 32 + m ≤ a ∧ a < 32 + m + (k + 1) then setLsb (Memory.read s.mem a) (payloadBit bytes (a - 32))
            else Memory.read s.mem a) ∧
          t = { s with ci := t.ci, bitpos := t.bitpos, mem := t.mem, acc := t.acc, src := t.src } := by
      intro x b hx hxe hbit hacc hsrc
      have hmem : (wrotePayloadBit x b).mem =
          Memory.write s.mem s.ci.toNat (setLsb (Memory.read s.mem s.ci.toNat) b) := by rw [hxe]; rfl
      have hpk : Packing bytes (m + 1) (wrotePayloadBit x b) := by
        refine ⟨by rw [hxe]; exact h.phase, by rw [hmem]; exact Memory.wf_write h.mem_wf, ?_, ?_, hsrc, fun hne => ?_⟩
        · rw [hxe]; exact hci
        · rw [hxe]; exact hbp
        · rw [show (m + 1) / 8 = m / 8 by omega]; exact hacc
      obtain ⟨t, ht, hp, hta, hte⟩ := ih (m := m + 1)
        (unattended_congr (t := wrotePayloadBit x b) hu (by rw [hxe]; rfl)) hpk
        (by rw [hxe]; simp only [wrotePayloadBit]; omega) (by rw [hxe]; simp only [wrotePayloadBit]; omega) (by omega)
      refine ⟨t, by rw [run_succ (hs.trans hx), ht], by rw [Nat.add_right_comm] at hp; exact hp, fun a => ?_, ?_⟩
      · rw [hta a, hmem, read_carSetLsb h.mem_wf, h.ci, hbit]
        by_cases ha : a = 32 + m
        · subst ha
          rw [if_neg (by omega), if_pos rfl, if_pos (by omega), Nat.add_sub_cancel_left]
        · rw [if_neg ha]
          by_cases hr : 32 + m ≤ a ∧ a < 32 + m + (k + 1)
          · rw [if_pos hr, if_pos (by omega)]
          · rw [if_neg hr, if_neg (by omega)]
      · rw [hte, hxe]; rfl
    by_cases hz : m % 8 = 0
    · have h0 : s.bitpos = 0 := BitVec.eq_of_toNat_eq (by rw [h.bitpos, hz]; rfl)
      have hsrc : s.src = bytes.getD (m / 8) 0 :: bytes.drop (m / 8 + 1) := by
        rw [h.src, show (m + 7) / 8 = m / 8 by omega, List.drop_eq_getElem_cons hlen, List.getD_eq_getElem _ _ hlen]
      refine go _ _ (stepWritePayload_first (by rw [h.ci]; omega) (by rw [h.ci]; omega) hlt h0 hsrc) rfl ?_ rfl ?_
      · rw [payloadBit, hz]
      · simp only [show (m + 8) / 8 = m / 8 + 1 by omega]
    · have h0 : s.bitpos ≠ 0 := fun e => hz (by rw [← h.bitpos, e]; rfl)
      refine go _ _ (stepWritePayload_next (by rw [h.ci]; omega) (by rw [h.ci]; omega) hlt h0) rfl ?_ (h.acc hz) ?_
      · rw [payloadBit, h.acc hz, h.bitpos]
      · rw [h.src, show (m + 8) / 8 = (m + 7) / 8 by omega]

/-- The first `n` bits of payload byte `j`, as they stand in the bits 0 of its carriers (20_memory.md R45). -/
def carriedBits (m : Memory) (j : Nat) : Nat → Byte
  | 0 => 0
  | n + 1 => accumulate (carriedBits m j n) (BitVec.ofNat 3 n) (lsb (Memory.read m (payloadCarrier j n)))

theorem getLsbD_carriedBits (m : Memory) (j : Nat) {n : Nat} (hn : n ≤ 8) (b : Nat) :
    (carriedBits m j n).getLsbD b = (decide (b < n) && lsb (Memory.read m (payloadCarrier j b))) := by
  induction n with
  | zero => simp [carriedBits]
  | succ n ih =>
    have : (BitVec.ofNat 3 n).toNat = n := by rw [BitVec.toNat_ofNat]; omega
    rw [carriedBits, getLsbD_accumulate, ih (by omega), this]
    grind

/-- The payload bytes that the carriers hold, from byte `j` on. -/
def carriedBytes (m : Memory) (j n : Nat) : List Byte := (List.range' j n).map fun i => carriedBits m i 8

@[simp] theorem length_carriedBytes (m : Memory) (j n : Nat) : (carriedBytes m j n).length = n := by
  simp [carriedBytes]

theorem getD_carriedBytes (m : Memory) {j n i : Nat} (h : i < n) :
    (carriedBytes m j n).getD i 0 = carriedBits m (j + i) 8 := by
  rw [List.getD_eq_getElem _ _ (by simpa using h)]
  simp [carriedBytes]

/-- Where the unpacker stands after `m` payload bits. -/
structure Unpacking (m : Nat) (s : State) : Prop where
  phase : s.phase = .readPayload
  ready : s.sinkReady = true
  ci : s.ci.toNat = 32 + m
  bitpos : s.bitpos.toNat = m % 8
  count : s.count.toNat = m / 8
  acc : s.acc = carriedBits s.mem (m / 8) (m % 8)

/-- READ_PAYLOAD for `k` more bits, with a sink that takes every byte. -/
theorem run_readPayload {k : Nat} : ∀ {s : State} {m : Nat}, Unattended s → Unpacking m s →
    m + k ≤ 8 * s.leff.toNat → 32 + m + k ≤ s.capBits.toNat →
    ∃ t, run k s = .next t ∧ Unpacking (m + k) t ∧
      t.sink = s.sink ++ carriedBytes s.mem (m / 8) ((m + k) / 8 - m / 8) ∧
      t = { s with ci := t.ci, bitpos := t.bitpos, acc := t.acc, count := t.count, sink := t.sink } := by
  induction k with
  | zero =>
    intro s m _ h _ _
    exact ⟨s, rfl, h, by simp [carriedBytes], rfl⟩
  | succ k ih =>
    intro s m hu h hl hc
    have hs := step_of_phase hu h.phase (by decide)
    rw [blockStep_readPayload h.phase] at hs
    have hlt : s.ci.toNat < s.capBits.toNat := by rw [h.ci]; omega
    have hci : (s.ci + 1).toNat = 32 + (m + 1) := by rw [toNat_succ_of_lt hlt, h.ci]; omega
    have hbp : (s.bitpos + 1).toNat = (m + 1) % 8 := by rw [toNat_bitpos_succ, h.bitpos]; omega
    have hnext : nextAcc s = carriedBits s.mem (m / 8) (m % 8 + 1) := by
      have h1 : BitVec.ofNat 3 (m % 8) = s.bitpos := by
        apply BitVec.eq_of_toNat_eq; rw [BitVec.toNat_ofNat, h.bitpos]; omega
      have h2 : payloadCarrier (m / 8) (m % 8) = s.ci.toNat := by
        simp only [payloadCarrier, Config.payloadStart, Config.bitsPerPayloadByte, h.ci]; omega
      rw [carriedBits, h1, h2, nextAcc, h.acc]
    -- one bit, then the rest
    have go : ∀ u : State, stepReadPayload s = .next u → Unpacking (m + 1) u →
        u.sink = s.sink ++ carriedBytes s.mem (m / 8) ((m + 1) / 8 - m / 8) →
        u = { s with ci := u.ci, bitpos := u.bitpos, acc := u.acc, count := u.count, sink := u.sink } →
        ∃ t, run (k + 1) s = .next t ∧ Unpacking (m + (k + 1)) t ∧
          t.sink = s.sink ++ carriedBytes s.mem (m / 8) ((m + (k + 1)) / 8 - m / 8) ∧
          t = { s with ci := t.ci, bitpos := t.bitpos, acc := t.acc, count := t.count, sink := t.sink } := by
      intro u hx hup hsink hxe
      obtain ⟨t, ht, hp, hts, hte⟩ := ih (s := u) (m := m + 1) (unattended_congr hu (by rw [hxe])) hup
        (by rw [hxe]; simp only; omega) (by rw [hxe]; simp only; omega)
      refine ⟨t, by rw [run_succ (hs.trans hx), ht], by rw [Nat.add_right_comm] at hp; exact hp, ?_, ?_⟩
      · have hm : u.mem = s.mem := by rw [hxe]
        rw [hts, hsink, hm, List.append_assoc, carriedBytes, carriedBytes, ← List.map_append]
        congr 2
        have hsplit := List.range'_append (s := m / 8) (m := (m + 1) / 8 - m / 8)
          (n := (m + 1 + k) / 8 - (m + 1) / 8) (step := 1)
        rw [show m / 8 + 1 * ((m + 1) / 8 - m / 8) = (m + 1) / 8 by omega] at hsplit
        rw [hsplit]
        congr 1
        omega
      · rw [hte, hxe]
    by_cases hz : m % 8 = 7
    · have h7 : s.bitpos = 7 := BitVec.eq_of_toNat_eq (by rw [h.bitpos, hz]; rfl)
      refine go _ (stepReadPayload_byte (by rw [h.ci]; omega) (by rw [h.ci]; omega) hlt h7 h.ready) ?_ ?_ rfl
      · refine ⟨h.phase, h.ready, hci, ?_, ?_, ?_⟩
        · rw [show (m + 1) % 8 = 0 by omega]; rfl
        · have hll := s.leff.isLt
          have h1 : (1 : Len).toNat = 1 := rfl
          simp only [BitVec.toNat_add, h.count, h1]
          omega
        · simp only [show (m + 1) % 8 = 0 by omega, carriedBits]
      · rw [hnext, hz, show (m + 1) / 8 - m / 8 = 1 by omega]
        rfl
    · have h7 : s.bitpos ≠ 7 := fun e => hz (by rw [← h.bitpos, e]; rfl)
      refine go _ (stepReadPayload_bit (by rw [h.ci]; omega) (by rw [h.ci]; omega) hlt h7) ?_ ?_ rfl
      · refine ⟨h.phase, h.ready, hci, hbp, ?_, ?_⟩
        · simp only [h.count]; omega
        · simp only [hnext, show (m + 1) / 8 = m / 8 by omega, show (m + 1) % 8 = m % 8 + 1 by omega]
      · rw [show (m + 1) / 8 - m / 8 = 0 by omega]
        simp [carriedBytes]

/-- What the carriers hold when their bits 0 are the bits of `bytes`. -/
theorem carriedBytes_eq {m : Memory} {bytes : List Byte} {n : Nat} (hn : n ≤ bytes.length)
    (h : ∀ a, 32 ≤ a → a < 32 + 8 * n → lsb (Memory.read m a) = payloadBit bytes (a - 32)) :
    carriedBytes m 0 n = bytes.take n := by
  apply List.ext_getElem
  · simp [hn]
  · intro j h1 h2
    rw [length_carriedBytes] at h1
    have e1 := getD_carriedBytes m (j := 0) h1
    rw [List.getD_eq_getElem _ _ (by simpa using h1), Nat.zero_add] at e1
    rw [e1, List.getElem_take]
    apply BitVec.eq_of_getLsbD_eq
    intro b hb
    have hc : payloadCarrier j b = 32 + 8 * j + b := rfl
    rw [getLsbD_carriedBits m _ le_rfl, h _ (by omega) (by omega)]
    rw [payloadBit, show (payloadCarrier j b - 32) / 8 = j by omega, show (payloadCarrier j b - 32) % 8 = b by omega,
      List.getD_eq_getElem _ _ (by omega)]
    simp [hb]

/-! Whole phases, and the steps around them. -/

/-- WRITE_PAYLOAD from its first bit to DONE. -/
theorem run_packPhase {bytes : List Byte} {s : State} {M : Nat} (hu : Unattended s) (h : Packing bytes 0 s)
    (h32 : 32 ≤ s.capBits.toNat) (hM : M = min (8 * s.leff.toNat) (s.capBits.toNat - 32))
    (hb : (M + 7) / 8 ≤ bytes.length) :
    ∃ t, run (M + 1) s = .next t ∧ t.ci.toNat = 32 + M ∧ Memory.wf t.mem ∧
      (∀ a, Memory.read t.mem a =
        if 32 ≤ a ∧ a < 32 + M then setLsb (Memory.read s.mem a) (payloadBit bytes (a - 32))
        else Memory.read s.mem a) ∧ t.src = bytes.drop ((M + 7) / 8) ∧
      t = { s with
        phase := .done, count := s.leff, ci := t.ci, bitpos := t.bitpos, mem := t.mem, acc := t.acc, src := t.src } := by
  obtain ⟨u, hr, hp, ha, he⟩ := run_writePayload (k := M) hu h (by omega) (by omega) (by simpa using hb)
  simp only [Nat.zero_add, Nat.add_zero] at hp ha
  have hs : step u = .next { u with count := u.leff, phase := .done } := by
    rw [step_of_phase (unattended_congr hu (by rw [he])) hp.phase (by decide), blockStep_writePayload hp.phase]
    refine stepWritePayload_end (by rw [hp.ci]; omega) ?_
    have e1 : u.leff = s.leff := by rw [he]
    have e2 : u.capBits = s.capBits := by rw [he]
    rw [hp.ci, e1, e2]; omega
  exact ⟨_, (run_add hr 1).trans ((run_succ hs 0).trans rfl), hp.ci, hp.mem_wf, ha, hp.src, by rw [he]⟩

/-- READ_PAYLOAD from its first bit to DONE. -/
theorem run_unpackPhase {s : State} {M : Nat} (hu : Unattended s) (h : Unpacking 0 s)
    (h32 : 32 ≤ s.capBits.toNat) (hM : M = min (8 * s.leff.toNat) (s.capBits.toNat - 32)) :
    ∃ t, run (M + 1) s = .next t ∧ t.ci.toNat = 32 + M ∧ t.count.toNat = M / 8 ∧
      t.sink = s.sink ++ carriedBytes s.mem 0 (M / 8) ∧
      t = { s with
        phase := .done
        result := if 8 * s.leff.toNat ≤ s.capBits.toNat - 32 then s.result else .incompleteExtraction
        ci := t.ci, bitpos := t.bitpos, acc := t.acc, count := t.count, sink := t.sink } := by
  obtain ⟨u, hr, hp, ha, he⟩ := run_readPayload (k := M) hu h (by omega) (by omega)
  simp only [Nat.zero_add, Nat.zero_div, Nat.sub_zero] at hp ha
  have e1 : u.leff = s.leff := by rw [he]
  have e2 : u.capBits = s.capBits := by rw [he]
  have hst := step_of_phase (unattended_congr (t := u) hu (by rw [he])) hp.phase (by decide)
  rw [blockStep_readPayload hp.phase] at hst
  by_cases hc : 8 * s.leff.toNat ≤ s.capBits.toNat - 32
  · rw [stepReadPayload_complete (by rw [hp.ci]; omega) (by rw [hp.ci, e1]; omega)] at hst
    exact ⟨_, (run_add hr 1).trans ((run_succ hst 0).trans rfl), hp.ci, hp.count, ha, by rw [if_pos hc]; rw [he]⟩
  · rw [stepReadPayload_exhausted (by rw [hp.ci]; omega) (by rw [hp.ci, e1]; omega) (by rw [hp.ci, e2]; omega)] at hst
    exact ⟨_, (run_add hr 1).trans ((run_succ hst 0).trans rfl), hp.ci, hp.count, ha, by rw [if_neg hc]; rw [he]; rfl⟩

/-- WRITE_HEADER from its first carrier to the phase after it. -/
theorem run_headerWritten {s : State} (hu : Unattended s) (hp : s.phase = .writeHeader) (hm : Memory.wf s.mem)
    (hc : 32 ≤ s.capBits.toNat) (hi : s.ci = 0) :
    ∃ t, run 33 s = .next t ∧ t.ci.toNat = 32 ∧ Memory.wf t.mem ∧
      (∀ a, Memory.read t.mem a =
        if a < 32 then setLsb (Memory.read s.mem a) (s.leff.getLsbD a) else Memory.read s.mem a) ∧
      t = { s with phase := if s.op = Config.opHdrenc then .done else .writePayload, ci := t.ci, mem := t.mem } := by
  obtain ⟨u, hr, huc, hum, ha, he⟩ := run_writeHeader (k := 32) hu hp hm hc (by simp [hi])
  have hup : u.phase = .writeHeader := by rw [he]; exact hp
  have hst := step_of_phase (unattended_congr (t := u) hu (by rw [he])) hup (by decide)
  have e : u.op = s.op := by rw [he]
  rw [blockStep_writeHeader hup, stepWriteHeader_exit huc, e] at hst
  have ha' : ∀ a, Memory.read u.mem a =
        if a < 32 then setLsb (Memory.read s.mem a) (s.leff.getLsbD a) else Memory.read s.mem a := by
    intro a; rw [ha a]; simp [hi]
  by_cases ho : s.op = Config.opHdrenc
  · rw [if_pos ho] at hst
    exact ⟨_, (run_add hr 1).trans ((run_succ hst 0).trans rfl), huc, hum, ha', by rw [if_pos ho]; rw [he]⟩
  · rw [if_neg ho] at hst
    exact ⟨_, (run_add hr 1).trans ((run_succ hst 0).trans rfl), huc, hum, ha', by rw [if_neg ho]; rw [he]⟩

/-- READ_HEADER from its first carrier to the phase after it. -/
theorem run_headerRead {s : State} (hu : Unattended s) (hp : s.phase = .readHeader)
    (hc : 32 ≤ s.capBits.toNat) (hi : s.ci = 0) (hh : s.hdrLen = 0) :
    ∃ t, run 33 s = .next t ∧ t.ci.toNat = 32 ∧
      (∀ i, i < 32 → t.hdrLen.getLsbD i = (Memory.read s.mem i).getLsbD 0) ∧
      t = { s with
        phase := if s.op = Config.opHdrdec then .done else .readPayload
        leff := if s.op = Config.opHdrdec then s.leff else t.hdrLen
        ci := t.ci, hdrLen := t.hdrLen } := by
  obtain ⟨u, hr, huc, ha, he⟩ := run_readHeader (k := 32) hu hp hc (by simp [hi])
  have hup : u.phase = .readHeader := by rw [he]; exact hp
  have hst := step_of_phase (unattended_congr (t := u) hu (by rw [he])) hup (by decide)
  have e : u.op = s.op := by rw [he]
  have ha' : ∀ i, i < 32 → u.hdrLen.getLsbD i = (Memory.read s.mem i).getLsbD 0 := by
    intro i h; rw [ha i]; simp [hi, hh, h]
  rw [blockStep_readHeader hup, stepReadHeader_exit huc, e] at hst
  by_cases ho : s.op = Config.opHdrdec
  · rw [if_pos ho] at hst
    exact ⟨_, (run_add hr 1).trans ((run_succ hst 0).trans rfl), huc, ha', by rw [if_pos ho, if_pos ho]; rw [he]⟩
  · rw [if_neg ho] at hst
    exact ⟨_, (run_add hr 1).trans ((run_succ hst 0).trans rfl), huc, ha', by rw [if_neg ho, if_neg ho]; rw [he]⟩

/-- The step that takes a command: its word is written to CMD when the block is not busy. -/
theorem step_take {s : State} {c : CmdWord} {i : Instr} {f : State → State} {rest : List HostOp}
    (h : s.port = .write Config.regCmd c :: rest) (hd : decode c = .ok i) (hf : startOf i = some f)
    (hb : s.phase = .idle ∨ s.phase = .done) : step s = .next (f { s with port := rest }) := by
  rw [step_write h, writeCmd_ok hd, exec_start hf, commandWith_ready]
  rwa [busy_port, busy_eq_false]

/-- After the operation has ended a wait is over. -/
theorem waitOver_done {s : State} (h : s.phase = .done) : waitOver s = true := by simp [waitOver, busy, h]

end Sys2Proof.Machine
end

