-- ==== Sys2Proof/Laws/PerInstr.lean ====
section
/-! SUPPORT. One lemma per command, about its word alone. -/

namespace Sys2Proof.Laws.CommandWord

/-- The command's word carries the command's own fields, and they are legal (30_encoding.md R55, R57). -/
def Statement (i : Instr) : Prop :=
  i.wf = true ∧ fieldsOf (encode i) = i.fields

theorem cap : Statement .cap := ⟨by decide, fieldsOf_wordOf _⟩
theorem hdrenc : Statement .hdrenc := ⟨by decide, fieldsOf_wordOf _⟩
theorem hdrdec : Statement .hdrdec := ⟨by decide, fieldsOf_wordOf _⟩
theorem pack : Statement .pack := ⟨by decide, fieldsOf_wordOf _⟩
theorem unpack : Statement .unpack := ⟨by decide, fieldsOf_wordOf _⟩
theorem embed : Statement .embed := ⟨by decide, fieldsOf_wordOf _⟩
theorem extract : Statement .extract := ⟨by decide, fieldsOf_wordOf _⟩
theorem confirmNo : Statement .confirmNo := ⟨by decide, fieldsOf_wordOf _⟩
theorem confirmYes : Statement .confirmYes := ⟨by decide, fieldsOf_wordOf _⟩

end Sys2Proof.Laws.CommandWord
end

