-- ==== Sys2Proof/Tests/Slice0.lean ====
section
/-! SUPPORT. The model's own tests: what WellFormed refuses, words written out bit by bit from 30_encoding.md R55 to
R57, single steps whose results are those of 95_test_vectors.md, and, for every statement of Obligations.lean that
has hypotheses, a state or operands that meet them (`witness_<statement>`). -/

namespace Sys2Proof.Tests

open Sys2Proof.Machine

/-! ## WellFormed: one ill-formed term for each check -/

theorem test_wf_refuses_opcode_zero : Fields.opcKnown ⟨0x0, false, 0⟩ = false ∧ Fields.wf ⟨0x0, false, 0⟩ = false := by
  decide
theorem test_wf_refuses_opcode_nine : Fields.opcKnown ⟨0x9, false, 0⟩ = false ∧ Fields.wf ⟨0x9, false, 0⟩ = false := by
  decide
theorem test_wf_refuses_answer_on_cap :
    Fields.ansAllowed ⟨0x1, true, 0⟩ = false ∧ Fields.wf ⟨0x1, true, 0⟩ = false := by decide
theorem test_wf_refuses_reserved_bit :
    Fields.rsvClear ⟨0x8, true, 1⟩ = false ∧ Fields.wf ⟨0x8, true, 1⟩ = false := by decide

/-! ## Decoding: RSV, ANS, OPC as R55 lays them out -/

theorem test_decode_cap : decode (0b000000000000000000000000000#27 ++ 0b0#1 ++ 0b0001#4) = .ok .cap := by decide
theorem test_decode_hdrenc : decode (0b000000000000000000000000000#27 ++ 0b0#1 ++ 0b0010#4) = .ok .hdrenc := by decide
theorem test_decode_hdrdec : decode (0b000000000000000000000000000#27 ++ 0b0#1 ++ 0b0011#4) = .ok .hdrdec := by decide
theorem test_decode_pack : decode (0b000000000000000000000000000#27 ++ 0b0#1 ++ 0b0100#4) = .ok .pack := by decide
theorem test_decode_unpack : decode (0b000000000000000000000000000#27 ++ 0b0#1 ++ 0b0101#4) = .ok .unpack := by decide
theorem test_decode_embed : decode (0b000000000000000000000000000#27 ++ 0b0#1 ++ 0b0110#4) = .ok .embed := by decide
theorem test_decode_extract : decode (0b000000000000000000000000000#27 ++ 0b0#1 ++ 0b0111#4) = .ok .extract := by decide
theorem test_decode_confirm_no :
    decode (0b000000000000000000000000000#27 ++ 0b0#1 ++ 0b1000#4) = .ok .confirmNo := by decide
theorem test_decode_confirm_yes :
    decode (0b000000000000000000000000000#27 ++ 0b1#1 ++ 0b1000#4) = .ok .confirmYes := by decide
/-- V-ILL-1 to V-ILL-7, V-ILL-10: no illegal word falls through to a command. -/
theorem test_decode_illegal :
    decode 0x00000000 = .error .unknownOpcode ∧ decode 0x00000009 = .error .unknownOpcode ∧
    decode 0x0000000F = .error .unknownOpcode ∧ decode 0x00000011 = .error .answerSet ∧
    decode 0x00000010 = .error .unknownOpcode ∧ decode 0x00000020 = .error .unknownOpcode ∧
    decode 0x80000001 = .error .reservedSet ∧ decode 0x00000028 = .error .reservedSet := by decide
theorem test_table_word : decodeTableWord 32 0x18 = some .confirmYes ∧ decodeTableWord 32 0x10 = none := by decide
theorem test_table_word_too_wide : decodeTableWord 64 0x100000001 = none := by decide

/-! ## Single steps -/

/-- The next state, where there is one. -/
def next? : Host.Outcome State Fault Refusal → Option State
  | .next s => some s
  | _ => none

/-- Reset, then WIDTH, HEIGHT and PLEN written. -/
def image (width height plen : Nat) : State :=
  { State.reset with width := .ofNat 32 width, height := .ofNat 32 height, plen := .ofNat 32 plen }

/-- A 4 × 4 image (48 carriers, CAP_BYTES = 6) with an operation running. -/
def running (phase : Phase) (op : BitVec 4) : State :=
  { image 4 4 2 with phase := phase, op := op, capBits := 48, capBytes := 6 }

/-- V-RST-1. -/
theorem test_reset_status : statusWord State.reset = 0x00000000 := by decide
/-- V-CAP-1: CAP_BITS = 300, CAP_BYTES = 37. -/
theorem test_cap_taken :
    (next? (exec .cap (image 10 10 0))).map (fun t => (t.capBits, t.capBytes)) = some (300, 37) := by decide
/-- V-CAP-2: STATUS = 0x00010008 at DONE, on an image with no carrier. -/
theorem test_cap_done :
    (next? (step { image 0 5 0 with phase := .readCapacity, op := Config.opCap })).map statusWord = some 0x00010008 := by
  decide
/-- V-HDR-6: 30 carriers are too few. -/
theorem test_hdrenc_undersized : (next? (exec .hdrenc (image 1 10 5))).map statusWord = some 0x00020308 := by decide
/-- V-HDR-1: bit 1 of 5 clears bit 0 of carrier 1. -/
theorem test_write_header_bit :
    (next? (step { running .writeHeader Config.opHdrenc with leff := 5, ci := 1, mem := [(1, 0xFF)] })).map
      (fun t => (t.mem, t.ci)) = some ([(1, 0xFE)], 2) := by decide
/-- V-HDD-7. -/
theorem test_hdrdec_undersized : (next? (exec .hdrdec (image 1 10 0))).map statusWord = some 0x00030308 := by decide
/-- V-HDD-4: bit 0 of the last header carrier is bit 31 of HDR_LEN. -/
theorem test_read_header_last_bit :
    (next? (step { running .readHeader Config.opHdrdec with ci := 31, mem := [(31, 0x01)] })).map
      (fun t => (t.hdrLen, t.ci)) = some (0x80000000, 32) := by decide
/-- V-PACK-1: bit 0 of 0xA5 goes to carrier 32, and the byte is taken from the source. -/
theorem test_pack_first_bit :
    (next? (step { running .writePayload Config.opPack with leff := 1, ci := 32, src := [0xA5] })).map
      (fun t => (t.mem, t.src, t.bitpos)) = some ([(32, 0x01)], [], 1) := by decide
/-- V-PACK-6: the carriers run out at 33, RESULT = OK and COUNT = LEFF. -/
theorem test_pack_runs_out :
    (next? (step { image 1 11 1 with
      phase := .writePayload, op := Config.opPack, capBits := 33, leff := 1, ci := 33, bitpos := 1 })).map
      (fun t => (statusWord t, t.count)) = some (0x00040008, 1) := by decide
/-- V-UNP-2: the eighth bit of 0xA5 completes the byte. -/
theorem test_unpack_last_bit :
    (next? (step { running .readPayload Config.opUnpack with
      leff := 1, ci := 39, bitpos := 7, acc := 0x25, mem := [(39, 0x01)] })).map
      (fun t => (t.sink, t.count, t.acc)) = some ([0xA5], 1, 0) := by decide
/-- V-UNP-4: two bytes given, the third does not exist. -/
theorem test_unpack_incomplete :
    (next? (step { running .readPayload Config.opUnpack with leff := 3, ci := 48, count := 2 })).map
      (fun t => (statusWord t, t.count)) = some (0x00050208, 2) := by decide
/-- V-EMB-3: refused in READ_CAPACITY. -/
theorem test_embed_undersized :
    (next? (step { image 1 10 5 with phase := .readCapacity, op := Config.opEmbed, capBits := 30 })).map statusWord =
      some 0x00060308 := by decide
/-- V-EMB-11: PLEN = 5 against CAP_BYTES = 4 asks, with OVERAGE = 1. -/
theorem test_embed_asks :
    (next? (step { image 1 11 5 with
      phase := .awaitPayloadSize, op := Config.opEmbed, capBits := 33, capBytes := 4 })).map
      (fun t => (statusWord t, t.overage)) = some (0x00060033, 1) := by decide
/-- V-EXT-7. -/
theorem test_extract_undersized : (next? (exec .extract (image 1 10 0))).map statusWord = some 0x00070308 := by decide
/-- V-EXT-6: the header is trusted. -/
theorem test_extract_trusts_header :
    (next? (step { running .readHeader Config.opExtract with ci := 32, hdrLen := 0xFFFFFFFF })).map
      (fun t => (t.leff, t.phase)) = some (0xFFFFFFFF, .readPayload) := by decide

/-- The open question of 2.9 (PLEN = 9, OVERAGE = 3). -/
def asking : State := { running .confirmTruncation Config.opEmbed with plen := 9, overage := 3 }

/-- V-CONF-1. -/
theorem test_confirm_no : (next? (exec .confirmNo asking)).map statusWord = some 0x00060108 := by decide
/-- V-ILL-8. -/
theorem test_confirm_no_unasked : (next? (exec .confirmNo State.reset)).map statusWord = some 0x00080408 := by decide
/-- V-CONF-2: LEFF = 6, and the header is written next. -/
theorem test_confirm_yes :
    (next? (exec .confirmYes asking)).map (fun t => (t.leff, t.phase)) = some (6, .writeHeader) := by decide
/-- V-CONF-3: CONFIRM with a reserved bit is turned away. -/
theorem test_confirm_reserved :
    (next? (step (asking.withFetchWord 32 0x38))).map statusWord = some 0x00061033 := by decide
/-- V-BUSY-2: WIDTH keeps its value. -/
theorem test_busy_width :
    (next? (step { running .writeHeader Config.opEmbed with port := [.write Config.regWidth 99] })).map
      (fun t => (t.width, t.cmdErr)) = some (4, true) := by decide
/-- V-ILL-7: an illegal word with bit 31 set, in IDLE. -/
theorem test_illegal_idle :
    (next? (step (State.reset.withFetchWord 32 0x80000001))).map statusWord = some 0x00010408 := by decide

/-! ## Witnesses: command words and taking a command -/

/-- `s` with the host's write of a word to CMD next. -/
def commanded (s : State) (c : CmdWord) : State := { s with port := [.write Config.regCmd c] }

theorem witness_DecodeAndEncodeAgree : decode 0x00000001 = .ok .cap := by decide
theorem witness_StepRunsTheDecodedCommand :
    (commanded State.reset 0x18).port = [.write Config.regCmd 0x18] ∧ decode 0x18 = .ok .confirmYes := by decide
theorem witness_IllegalCommandWhenNotBusy_illegal :
    (commanded State.reset 0x9).port = [.write Config.regCmd 0x9] ∧ (commanded State.reset 0x9).phase = .idle ∧
      ∀ i, decode 0x00000009 ≠ .ok i := by
  refine ⟨rfl, rfl, fun i => ?_⟩
  rw [show decode 0x00000009 = .error .unknownOpcode by decide]
  exact nofun
theorem witness_IllegalCommandWhenNotBusy_confirm :
    (commanded { State.reset with phase := .done } 0x18).port = [.write Config.regCmd 0x18] ∧
      (commanded { State.reset with phase := .done } 0x18).phase = .done := by decide
theorem witness_CommandWhileBusy_confirm :
    (commanded asking 0x8).port = [.write Config.regCmd 0x8] ∧ (commanded asking 0x18).port = [.write Config.regCmd 0x18]
      ∧ asking.phase = .confirmTruncation := by decide
theorem witness_CommandWhileBusy_other :
    (commanded asking 0x38).port = [.write Config.regCmd 0x38] ∧
      (commanded (running .writeHeader Config.opEmbed) 0x8).port = [.write Config.regCmd 0x8] ∧
      (running .writeHeader Config.opEmbed).phase ≠ .confirmTruncation := by decide
theorem witness_EveryCommandWordHasANextState :
    (commanded asking 0xFFFFFFFF).port = [.write Config.regCmd 0xFFFFFFFF] := by decide
theorem witness_CommandErrorNeverSteers :
    ∃ t, blockStep { running .writeHeader Config.opEmbed with leff := 2 } = .next t ∧ t.ci = 1 := ⟨_, rfl, rfl⟩
theorem witness_TakingALegalCommand_idle :
    (image 1 11 5).phase = .idle ∧ 32 ≤ 3 * (image 1 11 5).width.toNat * (image 1 11 5).height.toNat := by decide
theorem witness_TakingALegalCommand_undersized :
    ({ image 1 10 5 with phase := .done } : State).phase = .done ∧
      3 * (image 1 10 5).width.toNat * (image 1 10 5).height.toNat < 32 := by decide
theorem witness_ConfirmAnswersTheQuestion :
    asking.phase = .confirmTruncation ∧ asking.capBytes.toNat < asking.plen.toNat := by decide

/-! ## Witnesses: the block's own steps -/

theorem witness_ReadCapacityStep_cap :
    (running .readCapacity Config.opCap).port = [] ∧ (running .readCapacity Config.opCap).phase = .readCapacity ∧
      (running .readCapacity Config.opCap).op = Config.opCap := by decide
theorem witness_ReadCapacityStep_embed :
    ({ running .readCapacity Config.opEmbed with capBits := 31 } : State).capBits.toNat < 32 ∧
      32 ≤ ({ running .readCapacity Config.opEmbed with capBits := 32 } : State).capBits.toNat ∧
      (running .readCapacity Config.opEmbed).op = Config.opEmbed := by decide
theorem witness_AwaitPayloadSizeStep_over :
    let s := { running .awaitPayloadSize Config.opEmbed with plen := 7 }
    s.port = [] ∧ s.phase = .awaitPayloadSize ∧ s.capBytes.toNat < s.plen.toNat := by decide
theorem witness_AwaitPayloadSizeStep_fits :
    let s := { running .awaitPayloadSize Config.opEmbed with plen := 6 }
    s.port = [] ∧ s.phase = .awaitPayloadSize ∧ s.plen.toNat ≤ s.capBytes.toNat := by decide
theorem witness_WaitingStatesStay :
    State.reset.port = [] ∧ State.reset.phase = .idle ∧ asking.port = [] ∧ asking.phase = .confirmTruncation := by decide
theorem witness_WriteHeaderStep_exit :
    let s := { running .writeHeader Config.opHdrenc with ci := 32 }
    let e := { running .writeHeader Config.opEmbed with ci := 32 }
    s.port = [] ∧ s.phase = .writeHeader ∧ Memory.wf s.mem ∧ 32 ≤ s.capBits.toNat ∧ s.ci.toNat = 32 ∧
      s.op = Config.opHdrenc ∧ e.ci.toNat = 32 ∧ e.op ≠ Config.opHdrenc := by decide
theorem witness_WriteHeaderStep_bit :
    let s := { running .writeHeader Config.opHdrenc with ci := 31, capBits := 32 }
    s.port = [] ∧ s.phase = .writeHeader ∧ Memory.wf s.mem ∧ 32 ≤ s.capBits.toNat ∧ s.ci.toNat < 32 := by decide
theorem witness_ReadHeaderStep_exit :
    let s := { running .readHeader Config.opHdrdec with ci := 32 }
    let e := { running .readHeader Config.opExtract with ci := 32 }
    s.port = [] ∧ s.phase = .readHeader ∧ 32 ≤ s.capBits.toNat ∧ s.ci.toNat = 32 ∧ s.op = Config.opHdrdec ∧
      e.ci.toNat = 32 ∧ e.op ≠ Config.opHdrdec := by decide
theorem witness_ReadHeaderStep_bit :
    let s := { running .readHeader Config.opHdrdec with ci := 31, capBits := 32 }
    s.port = [] ∧ s.phase = .readHeader ∧ 32 ≤ s.capBits.toNat ∧ s.ci.toNat < 32 := by decide
theorem witness_WritePayloadStep_end :
    let s := { running .writePayload Config.opPack with leff := 1, ci := 40 }
    let e := { running .writePayload Config.opPack with leff := 9, ci := 48 }
    s.port = [] ∧ s.phase = .writePayload ∧ Memory.wf s.mem ∧ 32 ≤ s.ci.toNat ∧
      s.ci.toNat - 32 = 8 * s.leff.toNat ∧ e.capBits.toNat ≤ e.ci.toNat := by decide
theorem witness_WritePayloadStep_held :
    let s := { running .writePayload Config.opPack with leff := 2, ci := 32 }
    s.port = [] ∧ s.phase = .writePayload ∧ Memory.wf s.mem ∧ 32 ≤ s.ci.toNat ∧
      s.ci.toNat - 32 ≠ 8 * s.leff.toNat ∧ s.ci.toNat < s.capBits.toNat ∧ s.bitpos = 0 ∧ s.src = [] := by decide
theorem witness_WritePayloadStep_first :
    let s := { running .writePayload Config.opPack with leff := 2, ci := 40, src := [0x80] }
    s.ci.toNat - 32 ≠ 8 * s.leff.toNat ∧ s.ci.toNat < s.capBits.toNat ∧ s.bitpos = 0 ∧ s.src = 0x80 :: [] := by decide
theorem witness_WritePayloadStep_next :
    let s := { running .writePayload Config.opPack with leff := 2, ci := 47, bitpos := 7, acc := 0x80 }
    s.ci.toNat - 32 ≠ 8 * s.leff.toNat ∧ s.ci.toNat < s.capBits.toNat ∧ s.bitpos ≠ 0 := by decide
theorem witness_ReadPayloadStep_end :
    let s := { running .readPayload Config.opUnpack with leff := 2, ci := 48 }
    let e := { running .readPayload Config.opUnpack with leff := 3, ci := 48 }
    s.port = [] ∧ s.phase = .readPayload ∧ 32 ≤ s.ci.toNat ∧ s.ci.toNat - 32 = 8 * s.leff.toNat ∧
      e.ci.toNat - 32 ≠ 8 * e.leff.toNat ∧ e.capBits.toNat ≤ e.ci.toNat := by decide
theorem witness_ReadPayloadStep_bit :
    let s := { running .readPayload Config.opUnpack with leff := 2, ci := 32 }
    s.port = [] ∧ s.phase = .readPayload ∧ 32 ≤ s.ci.toNat ∧ s.ci.toNat - 32 ≠ 8 * s.leff.toNat ∧
      s.ci.toNat < s.capBits.toNat ∧ s.bitpos ≠ 7 := by decide
theorem witness_ReadPayloadStep_byte :
    let s := { running .readPayload Config.opUnpack with leff := 2, ci := 47, bitpos := 7 }
    let h := { s with sinkReady := false }
    s.ci.toNat - 32 ≠ 8 * s.leff.toNat ∧ s.ci.toNat < s.capBits.toNat ∧ s.bitpos = 7 ∧ s.sinkReady = true ∧
      h.bitpos = 7 ∧ h.sinkReady = false := by decide

/-! ## Witnesses: the register port -/

/-- A 4 × 4 image with EMBED writing its header and one host access next. -/
def visited (e : HostOp) : State := { running .writeHeader Config.opEmbed with leff := 2, port := [e] }

theorem witness_RegisterReads :
    (visited (.read 0)).port = [.read 0] ∧ (visited (.read 11)).port = [.read 11] ∧
      (visited (.read 12)).port = [.read 12] ∧ (12 : RegNum).toNat = 12 ∧ (255 : RegNum).toNat = 255 := by decide
theorem witness_StatusFields : (visited (.write Config.regStatus 7)).port = [.write Config.regStatus 7] := by decide
theorem witness_ConfigurationWrites_free :
    let s := { image 4 4 2 with port := [.write 2 99] }
    s.port = [.write 2 99] ∧ busy s = false ∧ (2 : RegNum).toNat = 2 ∧ (4 : RegNum).toNat = 4 := by decide
theorem witness_ConfigurationWrites_busy :
    (visited (.write 4 99)).port = [.write 4 99] ∧ busy (visited (.write 4 99)) = true ∧ (4 : RegNum).toNat = 4 := by
  decide
theorem witness_ConfigurationWrites_step :
    busy (visited .idle) = true ∧ (∀ rest, (visited .idle).port ≠ .reset :: rest) ∧
      ∃ t, step (visited .idle) = .next t ∧ t.ci = 1 := ⟨by decide, nofun, _, rfl, rfl⟩
theorem witness_OtherRegisterWritesAreIgnored :
    (visited (.write 1 7)).port = [.write 1 7] ∧ (visited (.write 5 7)).port = [.write 5 7] ∧
      5 ≤ (5 : RegNum).toNat ∧ 5 ≤ (255 : RegNum).toNat := by decide
theorem witness_NoCancellation :
    (visited (.write 0 7)).port = .write 0 7 :: [] ∧ busy (visited (.write 0 7)) = true ∧
      (visited (.write 0 7)).phase ≠ .confirmTruncation ∧ ∃ t, step (visited (.write 0 7)) = .next t ∧ t.cmdErr = true :=
  ⟨by decide, by decide, by decide, _, rfl, rfl⟩
theorem witness_NoCancellation_asking :
    busy (commanded asking 0x38) = true ∧ (0x38 : CmdWord) ≠ 0x8 ∧ (0x38 : CmdWord) ≠ 0x18 ∧
      ∃ t, step (commanded asking 0x38) = .next t ∧ t.cmdErr = true := ⟨by decide, by decide, by decide, _, rfl, rfl⟩
theorem witness_CommandErrorIsSticky_set :
    (visited (.write 0 1)).cmdErr = false ∧ ∃ t, step (visited (.write 0 1)) = .next t ∧ t.cmdErr = true :=
  ⟨rfl, _, rfl, rfl⟩
theorem witness_CommandErrorIsSticky_cleared :
    let s := { commanded (image 4 4 2) 0x1 with cmdErr := true }
    s.cmdErr = true ∧ ∃ t, step s = .next t ∧ t.cmdErr = false := ⟨rfl, _, rfl, rfl⟩
theorem witness_OpIsTheLastCommandTaken_taken :
    busy (commanded State.reset 0x9) = false ∧ ∃ t, step (commanded State.reset 0x9) = .next t ∧ t.op = 9 :=
  ⟨rfl, _, rfl, rfl⟩
theorem witness_OpIsTheLastCommandTaken_kept :
    busy (commanded asking 0x18) = true ∧ (∀ rest, (commanded asking 0x18).port ≠ .reset :: rest) ∧
      ∃ t, step (commanded asking 0x18) = .next t ∧ t.op = Config.opEmbed := ⟨by decide, nofun, _, rfl, rfl⟩
theorem witness_ResetClearsTheBlockAlone : (visited .reset).port = [.reset] := by decide

/-! ## Witnesses: invariants and rules about all steps -/

/-- EMBED of two bytes, about to write bit 1 of the header. -/
def inHeader : State := { running .writeHeader Config.opEmbed with leff := 2, ci := 1 }

/-- EMBED of two bytes, about to take the second one from the source. -/
def inPayload : State := { running .writePayload Config.opEmbed with leff := 2, ci := 40, src := [0x69] }

theorem inHeader_inv : Inv inHeader where
  mem_wf := by decide
  cap_max := by decide
  cap_bytes := by decide
  ci_le := by decide
  count_le := by decide
  busy_clean := by decide
  phase_inv := ⟨.inr rfl, by decide, by decide, rfl, rfl, rfl, rfl, by decide, fun _ => by unfold EmbedLength; decide⟩

theorem inPayload_inv : Inv inPayload where
  mem_wf := by decide
  cap_max := by decide
  cap_bytes := by decide
  ci_le := by decide
  count_le := by decide
  busy_clean := by decide
  phase_inv := ⟨.inr rfl, ⟨by decide, by decide, by decide, by decide⟩, rfl, rfl, by decide,
    fun _ => by unfold EmbedLength; decide⟩

theorem witness_StepKeepsTheInvariant : Inv inPayload ∧ ∃ t, step inPayload = .next t ∧ t.ci = 41 :=
  ⟨inPayload_inv, _, rfl, by decide⟩
theorem witness_InvariantStatesAlwaysStep : Inv inPayload ∧ hostTouchesCarriers inPayload = false :=
  ⟨inPayload_inv, by decide⟩
theorem witness_AStepChangesAtMostOneCarrierBit :
    Memory.wf inPayload.mem ∧ hostWritesCarriers inPayload = false ∧
      ∃ t, step inPayload = .next t ∧ Memory.read t.mem 40 = 1 := ⟨by decide, by decide, _, rfl, by decide⟩
theorem witness_WhichCommandsWriteWhichCarriers_header :
    Inv inHeader ∧ hostWritesCarriers inHeader = false ∧
      ∃ t, step inHeader = .next t ∧ Memory.read t.mem 1 ≠ Memory.read inHeader.mem 1 :=
  ⟨inHeader_inv, by decide, _, rfl, by decide⟩
theorem witness_WhichCommandsWriteWhichCarriers_payload :
    Inv inPayload ∧ hostWritesCarriers inPayload = false ∧
      ∃ t, step inPayload = .next t ∧ Memory.read t.mem 40 ≠ Memory.read inPayload.mem 40 :=
  ⟨inPayload_inv, by decide, _, rfl, by decide⟩
theorem witness_StreamsMoveOnlyInPayloadPhases :
    (∃ t, step inPayload = .next t ∧ t.src = []) ∧ ∀ b rest, inPayload.port ≠ .offer b :: rest :=
  ⟨⟨_, rfl, by decide⟩, nofun⟩
theorem witness_StreamsMoveOnlyInPayloadPhases_host :
    (visited (.offer 0x48)).port = [.offer 0x48] ∧ (visited (.setSinkReady false)).port = [.setSinkReady false] := by
  decide
theorem witness_StreamsMoveOnlyInPayloadPhases_level :
    (∃ t, step inPayload = .next t ∧ t.sinkReady = inPayload.sinkReady) ∧
      ∀ r rest, inPayload.port ≠ .setSinkReady r :: rest := ⟨⟨_, rfl, rfl⟩, nofun⟩
theorem witness_ControllerArcs :
    ∃ t, step { inHeader with ci := 32 } = .next t ∧ t.phase = .writePayload ∧ t.phase ≠ inHeader.phase ∧
      ∀ rest, inHeader.port ≠ .reset :: rest := ⟨_, rfl, by decide, by decide, nofun⟩

/-- Reset with the host about to write WIDTH, HEIGHT, PLEN and a command, and then to do `more`. -/
def booting (width height plen : Nat) (c : CmdWord) (more : List HostOp) : State :=
  { State.reset with
    port := [.write Config.regWidth (.ofNat 32 width), .write Config.regHeight (.ofNat 32 height),
      .write Config.regPlen (.ofNat 32 plen), .write Config.regCmd c] ++ more }

theorem booting_reachable (width height plen : Nat) (c : CmdWord) (more : List HostOp) :
    Reachable (booting width height plen c more) := .boot _ ⟨Memory.wf_nil, rfl⟩

theorem witness_BitPositionFollowsCarrierIndex :
    ∃ s, Reachable s ∧ s.phase = .readPayload ∧ s.ci = 33 :=
  ⟨_, (booting_reachable 4 4 2 0x5 []).run (k := 5) rfl, rfl, by decide⟩
theorem witness_BitPositionFollowsCarrierIndex_write :
    ∃ s, Reachable s ∧ s.phase = .writePayload :=
  ⟨_, (booting_reachable 4 4 2 0x4 []).run (k := 4) rfl, rfl⟩
theorem witness_OutputRegistersStayInBounds :
    ∃ s, Reachable s ∧ s.phase = .confirmTruncation ∧ s.overage = 3 :=
  ⟨_, (booting_reachable 4 4 9 0x6 []).run (k := 6) rfl, rfl, by decide⟩
theorem witness_CarrierPhasesHaveAFullHeader :
    (∃ s, Reachable s ∧ s.phase = .readHeader) ∧ ∃ s, Reachable s ∧ s.phase = .writeHeader ∧ s.capBits = 33 :=
  ⟨⟨_, (booting_reachable 4 4 0 0x7 []).run (k := 4) rfl, rfl⟩,
    _, (booting_reachable 1 11 0 0x2 []).run (k := 4) rfl, rfl, by decide⟩
theorem witness_ResultsOfEachCommand :
    ∃ s, Reachable s ∧ s.phase = .done ∧ s.result ≠ .illegalCommand ∧ s.op = Config.opCap :=
  ⟨_, (booting_reachable 4 4 0 0x1 []).run (k := 5) rfl, rfl, by decide, rfl⟩
theorem witness_RegistersAfterAnError_declined :
    ∃ s, Reachable s ∧ s.result = .capacityExceededDeclined :=
  ⟨_, (booting_reachable 4 4 9 0x6 [.idle, .idle, .write Config.regCmd 0x8]).run (k := 7) rfl, rfl⟩
theorem witness_RegistersAfterAnError_incomplete :
    ∃ s, Reachable s ∧ s.result = .incompleteExtraction :=
  ⟨_, (booting_reachable 1 11 1 0x5 []).run (k := 6) rfl, rfl⟩
theorem witness_RegistersAfterAnError_undersized :
    ∃ s, Reachable s ∧ s.result = .undersizedCarrier :=
  ⟨_, (booting_reachable 1 10 1 0x4 []).run (k := 4) rfl, rfl⟩

/-! ## Witnesses: whole operations -/

/-- A 10 × 10 image and the five bytes "HELLO" (V-EMB-1), with a plan of the host. -/
def hello (port : List HostOp) : State :=
  { image 10 10 5 with src := [0x48, 0x45, 0x4C, 0x4C, 0x4F], port := port }

theorem witness_CapOperation :
    (hello [.write Config.regCmd 0x1]).port = [.write Config.regCmd 0x1] ∧ (hello []).phase = .idle := by decide
theorem witness_HdrencOperation :
    (hello [.write Config.regCmd 0x2]).port = [.write Config.regCmd 0x2] ∧ (hello []).phase = .idle ∧
      Memory.wf (hello []).mem ∧ 32 ≤ 3 * (hello []).width.toNat * (hello []).height.toNat := by decide
theorem witness_HdrdecOperation :
    (hello [.write Config.regCmd 0x3]).port = [.write Config.regCmd 0x3] ∧ (hello []).phase = .idle ∧
      32 ≤ 3 * (hello []).width.toNat * (hello []).height.toNat := by decide
theorem witness_HeaderFidelity :
    let s := hello (assemble [.run .hdrenc, .run .hdrdec])
    s.port = assemble [.run .hdrenc, .run .hdrdec] ∧ s.phase = .idle ∧ Memory.wf s.mem ∧
      32 ≤ 3 * s.width.toNat * s.height.toNat := by decide
theorem witness_PackOperation :
    let s := hello [.write Config.regCmd 0x4]
    s.port = [.write Config.regCmd 0x4] ∧ s.phase = .idle ∧ Memory.wf s.mem ∧
      32 ≤ 3 * s.width.toNat * s.height.toNat ∧
      40 = min (8 * s.plen.toNat) (3 * s.width.toNat * s.height.toNat - 32) ∧ (40 + 7) / 8 ≤ s.src.length := by decide
theorem witness_UnpackOperation :
    let s := hello [.write Config.regCmd 0x5]
    s.port = [.write Config.regCmd 0x5] ∧ s.phase = .idle ∧ s.sinkReady = true ∧
      32 ≤ 3 * s.width.toNat * s.height.toNat ∧
      40 = min (8 * s.plen.toNat) (3 * s.width.toNat * s.height.toNat - 32) := by decide
theorem witness_PackUnpackRoundTrip :
    let s := { hello [.write Config.regCmd 0x4] with plen := 1, src := [0x01] }
    let u := { s with port := [.write Config.regCmd 0x5], mem := [(32, 0x01)] }
    s.port = [.write Config.regCmd 0x4] ∧ s.phase = .idle ∧ Memory.wf s.mem ∧
      32 + 8 * s.plen.toNat ≤ 3 * s.width.toNat * s.height.toNat ∧ s.plen.toNat ≤ s.src.length ∧
      (∃ t, run (8 * s.plen.toNat + 2) s = .next t ∧ u.mem = t.mem) ∧
      u.port = [.write Config.regCmd 0x5] ∧ u.phase = .idle ∧ u.sinkReady = true ∧ u.width = s.width ∧
      u.height = s.height ∧ u.plen = s.plen :=
  ⟨by decide, by decide, by decide, by decide, by decide, ⟨_, rfl, by decide⟩, by decide, by decide, by decide,
    by decide, by decide, by decide⟩
theorem witness_EmbedOperation :
    let s := hello [.write Config.regCmd 0x6]
    s.port = [.write Config.regCmd 0x6] ∧ s.phase = .idle ∧ Memory.wf s.mem ∧
      32 ≤ 3 * s.width.toNat * s.height.toNat ∧ s.plen.toNat ≤ 3 * s.width.toNat * s.height.toNat / 8 ∧
      40 = min (8 * s.plen.toNat) (3 * s.width.toNat * s.height.toNat - 32) ∧ (40 + 7) / 8 ≤ s.src.length := by decide
theorem witness_EmbedThatWritesNothing_undersized :
    let s := { image 1 10 5 with port := [.write Config.regCmd 0x6] }
    s.port = [.write Config.regCmd 0x6] ∧ s.phase = .idle ∧ 3 * s.width.toNat * s.height.toNat < 32 := by decide
theorem witness_EmbedThatWritesNothing_declined :
    let s := { image 4 4 9 with port := [.write Config.regCmd 0x6, .idle, .idle, .write Config.regCmd 0x8] }
    s.port = [.write Config.regCmd 0x6, .idle, .idle, .write Config.regCmd 0x8] ∧ s.phase = .idle ∧
      32 ≤ 3 * s.width.toNat * s.height.toNat ∧ 3 * s.width.toNat * s.height.toNat / 8 < s.plen.toNat := by decide
theorem witness_ExtractOperation :
    let s := { hello [.write Config.regCmd 0x7] with mem := [(0, 0x81), (2, 0x81)] }
    s.port = [.write Config.regCmd 0x7] ∧ s.phase = .idle ∧ s.sinkReady = true ∧
      32 ≤ 3 * s.width.toNat * s.height.toNat ∧
      (∀ i, i < 32 → (5 : Len).getLsbD i = (Memory.read s.mem i).getLsbD 0) ∧
      40 = min (8 * (5 : Len).toNat) (3 * s.width.toNat * s.height.toNat - 32) := by decide
theorem witness_EmbedExtractRoundTrip :
    let s := hello (assemble [.run .embed, .run .extract])
    s.port = assemble [.run .embed, .run .extract] ∧ s.phase = .idle ∧ Memory.wf s.mem ∧ s.sinkReady = true ∧
      32 + 8 * s.plen.toNat ≤ 3 * s.width.toNat * s.height.toNat ∧ s.plen.toNat ≤ s.src.length := by decide
theorem witness_AcceptedTruncationLosesFourBytes :
    let s := { image 4 4 9 with
      src := [0x41, 0x42, 0x43], port := assemble [.run .embed, .run .confirmYes, .run .extract] }
    s.port = assemble [.run .embed, .run .confirmYes, .run .extract] ∧ s.phase = .idle ∧ Memory.wf s.mem ∧
      s.sinkReady = true ∧ 48 = 3 * s.width.toNat * s.height.toNat ∧ 48 / 8 < s.plen.toNat ∧
      (48 - 32 + 7) / 8 ≤ s.src.length := by decide

/-! ## Witnesses: capacity, layout, memory, assembler -/

theorem witness_CapacityLaws : (4 : Dim).toNat ≤ (10 : Dim).toNat ∧ 32 ≤ (capBitsOf 1 11).toNat := by decide
theorem witness_CarrierIndexLayout :
    11 < rowBytes 4 ∧ 2 < (3 : Dim).toNat ∧ 11 ≤ (11 : Dim).toNat ∧ 31 < 32 := by decide
theorem witness_CarrierMemoryReadAfterWrite :
    Memory.wf [(0, 0x81), (2, 0x81)] ∧ ∀ k, Memory.read [(0, 0x81)] k = Memory.read [(0, 0x81)] k := ⟨by decide, fun _ => rfl⟩
theorem witness_PseudoOperationsExpand :
    (visited .wait).port = [.wait] ∧ busy (visited .wait) = true ∧ (visited .wait).phase ≠ .confirmTruncation ∧
      ({ asking with port := [.wait] } : State).phase = .confirmTruncation ∧
      ({ asking with port := [.answer true] } : State).port = [.answer true] ∧
      (visited (.answer false)).port = [.answer false] := by decide
theorem witness_HostCarrierAccess_free :
    let s := { image 4 4 2 with port := [.putCarrier 47 0xFF] }
    let u := { image 4 4 2 with port := [.getCarrier 0] }
    s.port = [.putCarrier 47 0xFF] ∧ busy s = false ∧ Memory.wf s.mem ∧ u.port = [.getCarrier 0] ∧ busy u = false := by
  decide
theorem witness_HostCarrierAccess_busy :
    (visited (.putCarrier 0 1)).port = [.putCarrier 0 1] ∧ busy (visited (.putCarrier 0 1)) = true ∧
      (visited (.getCarrier 0)).port = [.getCarrier 0] ∧ busy (visited (.getCarrier 0)) = true := by decide
/-- Bytes up to the largest index, and a line moved before the command that stands above it. -/
theorem witness_SetupLinesComeFirst :
    (0x3FFFFFFFFFFFFFFFE : CarrierWord).toNat + [(0x41 : Byte), 0x42].length ≤ 2 ^ 66 ∧
      assemble [.run .embed, .src [0x48], .cm 7 [0x41]] =
        [.offer 0x48, .putCarrier 7 0x41, .write 0 6, .wait] ∧
      ∀ x, x ∈ [AsmLine.run .embed] → (∀ ci bytes, x ≠ .cm ci bytes) ∧ ∀ bytes, x ≠ .src bytes := by
  refine ⟨by decide, by decide, fun x hx => ?_⟩
  rw [List.mem_singleton.1 hx]
  exact ⟨nofun, nofun⟩

end Sys2Proof.Tests
end

namespace Sys2Proof.Machine

/-! ## The steps that `Laws/Steps.lean` leaves out -/

/-! READ_CAPACITY (40_capacity.md R76, 44_embed.md R105). -/

theorem stepReadCapacity_cap {s : State} (h : s.op = Config.opCap) :
    stepReadCapacity s = .next { s with phase := .done } := by
  rw [stepReadCapacity, if_pos h, capReady]

theorem stepReadCapacity_embed {s : State} (h : s.op = Config.opEmbed) :
    stepReadCapacity s = .next (embedReadCapacity s) := by
  rw [stepReadCapacity, if_neg (by rw [h]; decide), if_pos h]

theorem stepReadCapacity_other {s : State} (hc : s.op ≠ Config.opCap) (he : s.op ≠ Config.opEmbed) :
    stepReadCapacity s = .fault .noStepRule := by
  rw [stepReadCapacity, if_neg hc, if_neg he]

theorem stepReadCapacity_embed_small {s : State} (h : s.op = Config.opEmbed) (hc : s.capBits.toNat < 32) :
    stepReadCapacity s = .next { s with result := .undersizedCarrier, phase := .done } := by
  rw [stepReadCapacity_embed h, embedReadCapacity, unlessUndersized_small hc, finish]

theorem stepReadCapacity_embed_big {s : State} (h : s.op = Config.opEmbed) (hc : 32 ≤ s.capBits.toNat) :
    stepReadCapacity s = .next { s with phase := .awaitPayloadSize } := by
  rw [stepReadCapacity_embed h, embedReadCapacity, unlessUndersized_big hc]

theorem stepReadCapacity_cases {s t : State} (h : stepReadCapacity s = .next t) :
    (s.op = Config.opCap ∧ t = { s with phase := .done }) ∨
    (s.op = Config.opEmbed ∧ s.capBits.toNat < 32 ∧ t = { s with result := .undersizedCarrier, phase := .done }) ∨
    (s.op = Config.opEmbed ∧ 32 ≤ s.capBits.toNat ∧ t = { s with phase := .awaitPayloadSize }) := by
  by_cases hcap : s.op = Config.opCap
  · rw [stepReadCapacity_cap hcap] at h
    cases h
    exact .inl ⟨hcap, rfl⟩
  by_cases hemb : s.op = Config.opEmbed
  · rcases Nat.lt_or_ge s.capBits.toNat 32 with hc | hc
    · rw [stepReadCapacity_embed_small hemb hc] at h
      cases h
      exact .inr (.inl ⟨hemb, hc, rfl⟩)
    · rw [stepReadCapacity_embed_big hemb hc] at h
      cases h
      exact .inr (.inr ⟨hemb, hc, rfl⟩)
  · rw [stepReadCapacity_other hcap hemb] at h
    cases h

/-! AWAIT_PAYLOAD_SIZE (44_embed.md R106). -/

theorem embedAwaitPayloadSize_over {s : State} (h : s.capBytes.toNat < s.plen.toNat) :
    embedAwaitPayloadSize s = { s with
      overage := BitVec.ofNat 32 (s.plen.toNat - s.capBytes.toNat), phase := .confirmTruncation } := by
  rw [embedAwaitPayloadSize, if_pos h]

theorem embedAwaitPayloadSize_fits {s : State} (h : s.plen.toNat ≤ s.capBytes.toNat) :
    embedAwaitPayloadSize s = { s with leff := s.plen, phase := .writeHeader } := by
  rw [embedAwaitPayloadSize, if_neg (by omega)]

/-! The header phases by what ends them, and one carrier of the header for any CAP_BITS above it (41_header.md
R80, R84). -/

theorem stepWriteHeader_exit_hdrenc {s : State} (h : s.ci.toNat = 32) (hop : s.op = Config.opHdrenc) :
    stepWriteHeader s = .next { s with phase := .done } := by
  rw [stepWriteHeader_exit h, if_pos hop]

theorem stepWriteHeader_exit_payload {s : State} (h : s.ci.toNat = 32) (hop : s.op ≠ Config.opHdrenc) :
    stepWriteHeader s = .next { s with phase := .writePayload } := by
  rw [stepWriteHeader_exit h, if_neg hop]

theorem stepWriteHeader_bit_of_lt {s : State} (h : s.ci.toNat < 32) (hc : s.ci.toNat < s.capBits.toNat) :
    stepWriteHeader s = .next { s with
      mem := Memory.write s.mem s.ci.toNat
        (setLsb (Memory.read s.mem s.ci.toNat) (s.leff.getLsbD s.ci.toNat))
      ci := s.ci + 1 } := by
  simp only [stepWriteHeader, Config.headerBits, h, if_true, Nat.ne_of_lt h, if_false, carSetLsb_of_lt hc]

theorem stepReadHeader_exit_hdrdec {s : State} (h : s.ci.toNat = 32) (hop : s.op = Config.opHdrdec) :
    stepReadHeader s = .next { s with phase := .done } := by
  rw [stepReadHeader_exit h, if_pos hop]

theorem stepReadHeader_exit_payload {s : State} (h : s.ci.toNat = 32) (hop : s.op ≠ Config.opHdrdec) :
    stepReadHeader s = .next { s with leff := s.hdrLen, phase := .readPayload } := by
  rw [stepReadHeader_exit h, if_neg hop]

theorem stepReadHeader_bit_of_lt {s : State} (h : s.ci.toNat < 32) (hc : s.ci.toNat < s.capBits.toNat) :
    stepReadHeader s = .next { s with
      hdrLen := orBit s.hdrLen s.ci.toNat (lsb (Memory.read s.mem s.ci.toNat))
      ci := s.ci + 1 } := by
  simp only [stepReadHeader, Config.headerBits, h, if_true, Nat.ne_of_lt h, if_false, carRead_of_lt hc]

end Sys2Proof.Machine

namespace Sys2Proof.Machine

/-! ## The invariant, step by step

A step is one of `StepCase`; what each of these does to `Inv` is a lemma of its own. -/

/-! What the or-ing in of a bit does to the size of a register. -/

theorem toNat_orBit_lt {v : Len} {i : Nat} (b : Bool) (hv : v.toNat < 2 ^ i) (hi : i < 32) :
    (orBit v i b).toNat < 2 ^ (i + 1) := by
  apply Nat.lt_pow_two_of_testBit
  intro j hj
  have hvj : v.getLsbD j = false :=
    Nat.testBit_lt_two_pow (hv.trans_le (Nat.pow_le_pow_right (by omega) (by omega)))
  have hb := getLsbD_orBit v i b j hi
  rw [hvj, decide_eq_false (by omega)] at hb
  simpa [BitVec.getLsbD] using hb

theorem toNat_accumulate_lt {a : Byte} {p : BitVec 3} (b : Bool) (ha : a.toNat < 2 ^ p.toNat) :
    (accumulate a p b).toNat < 2 ^ (p.toNat + 1) := by
  apply Nat.lt_pow_two_of_testBit
  intro j hj
  have haj : a.getLsbD j = false :=
    Nat.testBit_lt_two_pow (ha.trans_le (Nat.pow_le_pow_right (by omega) (by omega)))
  have hb := getLsbD_accumulate a p b j
  rw [haj, decide_eq_false (by omega)] at hb
  simpa [BitVec.getLsbD] using hb

/-! The two ways in which a state comes to meet the invariant. -/

/-- While an operation runs, RESULT is still OK (R25). -/
theorem Inv.running {s : State} {p : Phase} (hi : Inv s) (hp : s.phase = p) (hw : p ≠ .idle ∧ p ≠ .done) :
    busy s = true ∧ s.result = .ok :=
  have hb := busy_eq_true.2 (hp ▸ hw)
  ⟨hb, (hi.busy_clean hb).1⟩

/-- The block's own step: what `OwnFrame` keeps need not be shown again. -/
theorem Inv.ownStep {s t : State} (hi : Inv s) (hb : busy s = true) (hf : OwnFrame s t) (hm : Memory.wf t.mem)
    (hci : t.ci.toNat ≤ max t.capBits.toNat 32) (hcount : t.count.toNat ≤ t.leff.toNat)
    (hr : busy t = true → t.result = .ok) (hp : PhaseInv t) : Inv t where
  mem_wf := hm
  cap_max := hf.capBits ▸ hi.cap_max
  cap_bytes := by rw [hf.capBits, hf.capBytes]; exact hi.cap_bytes
  ci_le := hci
  count_le := hcount
  busy_clean hbt := ⟨hr hbt, by
    rw [hf.capBits, hf.config.width, hf.config.height]; exact (hi.busy_clean hb).2⟩
  phase_inv := hp

/-- Taking a command: what R62 sets need not be shown again. -/
theorem TakenAs.inv {op : BitVec 4} {s t : State} (h : TakenAs op s t) (hm : Memory.wf s.mem)
    (hci : t.ci.toNat ≤ 32) (hr : busy t = true → t.result = .ok) (hp : PhaseInv t) : Inv t where
  mem_wf := h.outside.mem ▸ hm
  cap_max := h.capBits ▸ capacity_lt _ _
  cap_bytes := by rw [h.capBytes, h.capBits]
  ci_le := hci.trans (le_max_right _ _)
  count_le := by rw [h.count]; simp
  busy_clean hb := ⟨hr hb, by rw [h.capBits, h.config.width, h.config.height]⟩
  phase_inv := hp

/-- The six commands that end with UndersizedCarrier when there are fewer than 32 carriers (R63, R105). -/
def UsesCarriers (op : BitVec 4) : Prop :=
  op = Config.opHdrenc ∨ op = Config.opHdrdec ∨ op = Config.opPack ∨ op = Config.opUnpack ∨
    op = Config.opEmbed ∨ op = Config.opExtract

/-- The undersized check at taking: what is left to show is the first state of the command (R63). -/
theorem inv_unlessUndersized_take {op : BitVec 4} {s t : State} (hop : UsesCarriers op) (hm : Memory.wf s.mem)
    (ht : 32 ≤ (take op s).capBits.toNat → Inv t) : Inv (unlessUndersized (take op s) t) := by
  rcases Nat.lt_or_ge (take op s).capBits.toNat 32 with h | h
  · rw [unlessUndersized_small h]
    refine ((take_takenAs op s).first_state .undersizedCarrier .done _ _).inv hm (by simp) (by simp [busy]) ?_
    exact ⟨hop, h, rfl, rfl, rfl, rfl, rfl, rfl, rfl⟩
  · rw [unlessUndersized_big h]; exact ht h

/-- Where the payload commands start counting: at carrier 32, with no bit handled (R88, R96). -/
theorem PayloadProgress.start {s : State} (hc : 32 ≤ s.capBits.toNat) (hci : s.ci.toNat = 32)
    (hbit : s.bitpos = 0) : PayloadProgress s :=
  ⟨by omega, by omega, by omega, by rw [hci, hbit]; rfl⟩

/-- Taking a legal command leaves the invariant. -/
theorem inv_start {i : Instr} {start : State → State} (h : startOf i = some start) {s : State}
    (hm : Memory.wf s.mem) : Inv (start s) := by
  have first (op : BitVec 4) (p : Phase) (l : Len) (c : CarrierWord) (hc : c.toNat ≤ 32)
      (hp : PhaseInv { take op s with phase := p, leff := l, ci := c }) :
      Inv { take op s with phase := p, leff := l, ci := c } :=
    ((take_takenAs op s).first_state .ok p l c).inv hm hc (fun _ => rfl) hp
  cases i <;> cases h
  case cap => exact first _ .readCapacity 0 0 (by simp) ⟨.inl rfl, rfl, rfl, rfl, rfl, rfl, rfl, rfl⟩
  case embed => exact first _ .readCapacity 0 0 (by simp) ⟨.inr rfl, rfl, rfl, rfl, rfl, rfl, rfl, rfl⟩
  case hdrenc =>
    refine inv_unlessUndersized_take (by simp [UsesCarriers]) hm fun hc => ?_
    exact first _ .writeHeader s.plen 0 (by simp)
      ⟨.inl rfl, hc, by simp, rfl, rfl, rfl, rfl, fun _ => rfl, by simp⟩
  case hdrdec =>
    refine inv_unlessUndersized_take (by simp [UsesCarriers]) hm fun hc => ?_
    exact first _ .readHeader 0 0 (by simp) ⟨.inl rfl, hc, by simp, by simp, rfl, rfl, rfl, rfl⟩
  case extract =>
    refine inv_unlessUndersized_take (by simp [UsesCarriers]) hm fun hc => ?_
    exact first _ .readHeader 0 0 (by simp) ⟨.inr rfl, hc, by simp, by simp, rfl, rfl, rfl, rfl⟩
  case pack =>
    refine inv_unlessUndersized_take (by simp [UsesCarriers]) hm fun hc => ?_
    exact first _ .writePayload s.plen 32 (by decide)
      ⟨.inl rfl, .start hc rfl rfl, rfl, rfl, fun _ => rfl, by simp⟩
  case unpack =>
    refine inv_unlessUndersized_take (by simp [UsesCarriers]) hm fun hc => ?_
    exact first _ .readPayload s.plen 32 (by decide)
      ⟨.inl rfl, .start hc rfl rfl, by simp, by simp, fun _ => rfl, by simp⟩

/-! The block's own step, by STATE. -/

/-- READ_CAPACITY: CAP is over, EMBED is undersized or goes on (R76, R105). -/
theorem inv_stepReadCapacity {s t : State} (hi : Inv s) (hp : s.phase = .readCapacity) (hf : OwnFrame s t)
    (h : stepReadCapacity s = .next t) : Inv t := by
  obtain ⟨hb, hr⟩ := hi.running hp (by decide)
  have hpi := hi.phase_inv
  simp only [PhaseInv, hp] at hpi
  obtain ⟨-, hcl⟩ := hpi
  have hcl' (r : Result) (p : Phase) : Cleared { s with result := r, phase := p } :=
    ⟨hcl.ci, hcl.count, hcl.hdrLen, hcl.leff, hcl.overage, hcl.acc, hcl.bitpos⟩
  obtain ⟨hop, rfl⟩ | ⟨hop, hc, rfl⟩ | ⟨hop, hc, rfl⟩ := stepReadCapacity_cases h
  · refine hi.ownStep hb hf hi.mem_wf hi.ci_le hi.count_le (by simp [busy]) ?_
    simp only [PhaseInv, Ended, hr]
    exact .inl ⟨hop, hcl' _ _⟩
  · exact hi.ownStep hb hf hi.mem_wf hi.ci_le hi.count_le (by simp [busy]) ⟨by simp [hop], hc, hcl' _ _⟩
  · exact hi.ownStep hb hf hi.mem_wf hi.ci_le hi.count_le (fun _ => hr) ⟨hop, hc, hcl' _ _⟩

/-- AWAIT_PAYLOAD_SIZE: the question is opened, or the header begun (R106). -/
theorem inv_embedAwaitPayloadSize {s : State} (hi : Inv s) (hp : s.phase = .awaitPayloadSize)
    (hf : OwnFrame s (embedAwaitPayloadSize s)) : Inv (embedAwaitPayloadSize s) := by
  obtain ⟨hb, hr⟩ := hi.running hp (by decide)
  have hpi := hi.phase_inv
  simp only [PhaseInv, hp] at hpi
  obtain ⟨hop, hc, hcl⟩ := hpi
  rcases Nat.lt_or_ge s.capBytes.toNat s.plen.toNat with hlt | hle
  · rw [embedAwaitPayloadSize_over hlt] at hf ⊢
    refine hi.ownStep hb hf hi.mem_wf hi.ci_le hi.count_le (fun _ => hr) ?_
    have hov : (BitVec.ofNat 32 (s.plen.toNat - s.capBytes.toNat)).toNat = s.plen.toNat - s.capBytes.toNat :=
      (BitVec.toNat_ofNat ..).trans (Nat.mod_eq_of_lt ((Nat.sub_le ..).trans_lt s.plen.isLt))
    exact ⟨hop, hc, hlt, hov, hcl.ci, hcl.count, hcl.hdrLen, hcl.leff, hcl.acc, hcl.bitpos⟩
  · rw [embedAwaitPayloadSize_fits hle] at hf ⊢
    refine hi.ownStep hb hf hi.mem_wf hi.ci_le (by simp [hcl.count]) (fun _ => hr) ?_
    exact ⟨.inr hop, hc, by simp [hcl.ci], hcl.count, hcl.hdrLen, hcl.acc, hcl.bitpos, fun _ => rfl,
      fun _ => (min_eq_left hle).symm⟩

/-- WRITE_HEADER: over at carrier 32, else one carrier further (R80). -/
theorem inv_stepWriteHeader {s t : State} (hi : Inv s) (hp : s.phase = .writeHeader) (hf : OwnFrame s t)
    (h : stepWriteHeader s = .next t) : Inv t := by
  obtain ⟨hb, hr⟩ := hi.running hp (by decide)
  have hpi := hi.phase_inv
  simp only [PhaseInv, hp] at hpi
  obtain ⟨hop, hc, -, hcount, hhdr, hacc, hbit, henc, hemb⟩ := hpi
  obtain ⟨h32, hop', rfl⟩ | ⟨h32, hop', rfl⟩ | ⟨hlt, -, rfl⟩ := stepWriteHeader_cases h
  · refine hi.ownStep hb hf hi.mem_wf hi.ci_le hi.count_le (by simp [busy]) ?_
    simp only [PhaseInv, Ended, hr]
    exact .inr (.inl ⟨hop', hc, h32, hcount, hhdr⟩)
  · refine hi.ownStep hb hf hi.mem_wf hi.ci_le hi.count_le (fun _ => hr) ?_
    have hop := hop.resolve_left hop'
    exact ⟨.inr hop, .start hc h32 hbit, hcount, hhdr, fun e => by simp [hop] at e, hemb⟩
  · have hci := toNat_succ hlt (by omega)
    refine hi.ownStep hb hf (Memory.wf_write hi.mem_wf) (by simp only [hci]; omega) hi.count_le (fun _ => hr) ?_
    simp only [PhaseInv, hp]
    exact ⟨hop, hc, by simp only [hci]; omega, hcount, hhdr, hacc, hbit, henc, hemb⟩

/-- READ_HEADER: over at carrier 32, else one bit more of HDR_LEN (R84). -/
theorem inv_stepReadHeader {s t : State} (hi : Inv s) (hp : s.phase = .readHeader) (hf : OwnFrame s t)
    (h : stepReadHeader s = .next t) : Inv t := by
  obtain ⟨hb, hr⟩ := hi.running hp (by decide)
  have hpi := hi.phase_inv
  simp only [PhaseInv, hp] at hpi
  obtain ⟨hop, hc, -, hhdr, hcount, hleff, hacc, hbit⟩ := hpi
  obtain ⟨h32, hop', rfl⟩ | ⟨h32, hop', rfl⟩ | ⟨hlt, -, rfl⟩ := stepReadHeader_cases h
  · refine hi.ownStep hb hf hi.mem_wf hi.ci_le hi.count_le (by simp [busy]) ?_
    simp only [PhaseInv, Ended, hr]
    exact .inr (.inr (.inl ⟨hop', hc, h32, hcount, hleff⟩))
  · refine hi.ownStep hb hf hi.mem_wf hi.ci_le (by simp [hcount]) (fun _ => hr) ?_
    have hop := hop.resolve_left hop'
    exact ⟨.inr hop, .start hc h32 hbit, by simp [hacc, hbit], by simp [hcount, h32], fun e => by simp [hop] at e,
      fun _ => rfl⟩
  · have hci := toNat_succ hlt (by omega)
    refine hi.ownStep hb hf hi.mem_wf (by simp only [hci]; omega) hi.count_le (fun _ => hr) ?_
    simp only [PhaseInv, hp]
    refine ⟨hop, hc, by simp only [hci]; omega, ?_, hcount, hleff, hacc, hbit⟩
    rw [hci]
    exact toNat_orBit_lt _ hhdr hlt

/-- One payload bit further, with BITPOS in step (R89, R97). -/
theorem PayloadProgress.next {s t : State} (h : PayloadProgress s) (hl : s.ci.toNat - 32 ≠ 8 * s.leff.toNat)
    (hc : s.ci.toNat < s.capBits.toNat) (hci : t.ci = s.ci + 1) (hbit : t.bitpos = s.bitpos + 1)
    (hcap : t.capBits = s.capBits) (hleff : t.leff = s.leff) : PayloadProgress t := by
  obtain ⟨h1, h2, h3, h4⟩ := h
  have hci' := toNat_succ_of_lt hc
  have hbit' := toNat_bitpos_succ s.bitpos
  constructor
  · rw [hci]; omega
  · rw [hci, hcap]; omega
  · rw [hci, hleff]; omega
  · rw [hbit, hci]; omega

/-- WRITE_PAYLOAD: over, held on the source, or one bit further (R89). -/
theorem inv_stepWritePayload {s t : State} (hi : Inv s) (hp : s.phase = .writePayload) (hf : OwnFrame s t)
    (h : stepWritePayload s = .next t) : Inv t := by
  obtain ⟨hb, hr⟩ := hi.running hp (by decide)
  have hpi := hi.phase_inv
  simp only [PhaseInv, hp] at hpi
  obtain ⟨hop, hprog, hcount, hhdr, hpack, hemb⟩ := hpi
  obtain ⟨h32, ⟨hend, rfl⟩ | ⟨hl, hc, hbit⟩⟩ := stepWritePayload_cases h
  · refine hi.ownStep hb hf hi.mem_wf hi.ci_le (le_refl _) (by simp [busy]) ?_
    obtain ⟨-, hin, hlen, -⟩ := hprog
    simp only [PhaseInv, Ended, hr]
    refine .inr (.inr (.inr (.inl ⟨hop, by simp only; omega, rfl, by simp only; omega, hhdr⟩)))
  · -- whatever ACC and the source are now, a bit of ACC goes to the carrier at CI
    have bit {x : State} (b : Bool) (hx : x = { s with acc := x.acc, src := x.src })
        (ht : t = wrotePayloadBit x b) : Inv t := by
      rw [hx] at ht
      subst ht
      have hci := toNat_succ_of_lt hc
      refine hi.ownStep hb hf (Memory.wf_write hi.mem_wf) (by simp only [wrotePayloadBit, hci]; omega) hi.count_le
        (fun _ => hr) ?_
      simp only [PhaseInv, wrotePayloadBit, hp]
      exact ⟨hop, hprog.next hl hc rfl rfl rfl rfl, hcount, hhdr, hpack, hemb⟩
    obtain ⟨-, -, rfl⟩ | ⟨b, rest, -, -, ht⟩ | ⟨-, ht⟩ := hbit
    · exact hi
    · exact bit _ rfl ht
    · exact bit _ rfl ht

/-- READ_PAYLOAD: over, out of carriers, held on the sink, or one bit further (R97). -/
theorem inv_stepReadPayload {s t : State} (hi : Inv s) (hp : s.phase = .readPayload) (hf : OwnFrame s t)
    (h : stepReadPayload s = .next t) : Inv t := by
  obtain ⟨hb, hr⟩ := hi.running hp (by decide)
  have hpi := hi.phase_inv
  simp only [PhaseInv, hp] at hpi
  obtain ⟨hop, hprog, hacc, hcount, hunp, hext⟩ := hpi
  obtain ⟨h1, h2, h3, h4⟩ := hprog
  have hbit := toNat_bitpos_succ s.bitpos
  obtain ⟨-, ⟨hl, rfl⟩ | ⟨hl, hc, rfl⟩ | ⟨hl, hc, hmore⟩⟩ := stepReadPayload_cases h
  · refine hi.ownStep hb hf hi.mem_wf hi.ci_le hi.count_le (by simp [busy]) ?_
    simp only [PhaseInv, Ended, hr]
    refine .inr (.inr (.inr (.inr ⟨hop, BitVec.eq_of_toNat_eq ?_, ?_, h2, fun e => (hext e).symm⟩)))
    · simp only; omega
    · simp only; omega
  · refine hi.ownStep hb hf hi.mem_wf hi.ci_le hi.count_le (by simp [busy]) ?_
    refine ⟨hop, ?_, BitVec.eq_of_toNat_eq (Nat.le_antisymm h2 hc), ?_, ?_, fun e => (hext e).symm⟩
    · simp only [finish_capBits]; omega
    · simp only [finish_count, finish_capBits]; omega
    · simp only [finish_capBits, finish_leff]; omega
  · have hci := toNat_succ_of_lt hc
    obtain ⟨h7, rfl⟩ | ⟨h7, -, rfl⟩ | ⟨-, -, rfl⟩ := hmore
    · have h7' : s.bitpos.toNat ≠ 7 := fun e => h7 (BitVec.eq_of_toNat_eq e)
      refine hi.ownStep hb hf hi.mem_wf (by simp only [hci]; omega) hi.count_le (fun _ => hr) ?_
      simp only [PhaseInv, hp]
      refine ⟨hop, PayloadProgress.next ⟨h1, h2, h3, h4⟩ hl hc rfl rfl rfl rfl, ?_, ?_, hunp, hext⟩
      · have := toNat_accumulate_lt (lsb (Memory.read s.mem s.ci.toNat)) hacc
        rw [hbit, Nat.mod_eq_of_lt (by have := s.bitpos.isLt; omega)]
        exact this
      · rw [hci]; omega
    · have h7' : s.bitpos.toNat = 7 := by rw [h7]; rfl
      have hcnt : (s.count + 1).toNat = s.count.toNat + 1 := by
        have := s.leff.isLt
        exact BitVec.toNat_add_of_lt (y := 1) (show s.count.toNat + 1 < 2 ^ 32 by omega)
      refine hi.ownStep hb hf hi.mem_wf (by simp only [hci]; omega) (by simp only [hcnt]; omega) (fun _ => hr) ?_
      simp only [PhaseInv, hp]
      refine ⟨hop, PayloadProgress.next ⟨h1, h2, h3, h4⟩ hl hc rfl (by rw [h7]; rfl) rfl rfl, by simp, ?_, hunp, hext⟩
      rw [hci, hcnt]; omega
    · exact hi

/-- The block's own step keeps the invariant. -/
theorem inv_blockStep {s t : State} (hi : Inv s) (h : blockStep s = .next t) : Inv t := by
  have hf := blockStep_frame h
  cases hp : s.phase with
  | idle => rw [blockStep_idle hp] at h; cases h; exact hi
  | done => rw [blockStep_done hp] at h; cases h; exact hi
  | confirmTruncation => rw [blockStep_confirmTruncation hp] at h; cases h; exact hi
  | readCapacity => rw [blockStep_readCapacity hp] at h; exact inv_stepReadCapacity hi hp hf h
  | awaitPayloadSize =>
    rw [blockStep_awaitPayloadSize hp] at h; cases h; exact inv_embedAwaitPayloadSize hi hp hf
  | writeHeader => rw [blockStep_writeHeader hp] at h; exact inv_stepWriteHeader hi hp hf h
  | writePayload => rw [blockStep_writePayload hp] at h; exact inv_stepWritePayload hi hp hf h
  | readHeader => rw [blockStep_readHeader hp] at h; exact inv_stepReadHeader hi hp hf h
  | readPayload => rw [blockStep_readPayload hp] at h; exact inv_stepReadPayload hi hp hf h

/-! The host's accesses. -/

/-- Either answer leaves the question for a state of the invariant (R110). -/
theorem inv_confirm {s : State} (hi : Inv s) (hq : confirmReq s = true) :
    Inv (declineTruncation s) ∧ Inv (acceptTruncation s) := by
  have hp := confirmReq_eq_true.1 hq
  obtain ⟨hb, hr⟩ := hi.running hp (by decide)
  have hpi := hi.phase_inv
  simp only [PhaseInv, hp] at hpi
  obtain ⟨hop, hc, hlt, hov, hci, hcount, hhdr, hleff, hacc, hbit⟩ := hpi
  have hf {t : State} (ht : t = { s with count := t.count, leff := t.leff, result := t.result, phase := t.phase }) :
      OwnFrame s t := by
    rw [ht]; exact ⟨⟨rfl, rfl, rfl⟩, rfl, rfl, rfl, rfl, rfl, rfl, rfl⟩
  constructor
  · refine hi.ownStep hb (hf rfl) hi.mem_wf hi.ci_le (by simp [declineTruncation]) (by simp [busy, declineTruncation]) ?_
    refine ⟨hop, hc, rfl, hleff, hci, hhdr, ?_⟩
    simp only [declineTruncation, finish_overage]; omega
  · refine hi.ownStep hb (hf rfl) hi.mem_wf hi.ci_le (by simp [acceptTruncation, hcount]) (fun _ => hr) ?_
    refine ⟨.inr hop, hc, by simp [acceptTruncation, hci], hcount, hhdr, hacc, hbit,
      fun e => absurd (hop.symm.trans e) (by decide), fun _ => ?_⟩
    have := s.plen.isLt
    simp only [EmbedLength, acceptTruncation, BitVec.toNat_setWidth]
    rw [Nat.mod_eq_of_lt (by omega)]; omega

/-- Every command keeps the invariant, whatever STATE it comes in. -/
theorem inv_exec {i : Instr} {s t : State} (hi : Inv s) (h : exec i s = .next t) : Inv t := by
  obtain ⟨hb, -, rfl⟩ | ⟨-, -, rfl⟩ | ⟨-, start, hs, rfl⟩ | ⟨hq, -, rfl⟩ | ⟨hq, -, rfl⟩ := exec_cases h
  · exact hi.turnAway hb
  · exact hi.takeIllegal _
  · exact inv_start hs hi.mem_wf
  · exact (inv_confirm hi hq).1
  · exact (inv_confirm hi hq).2

theorem inv_commandIllegal {s : State} (hi : Inv s) (opc : BitVec 4) : Inv (commandIllegal opc s) := by
  unfold commandIllegal
  split
  · exact hi.turnAway ‹_›
  · exact hi.takeIllegal _

/-- What touches neither the block nor the configuration keeps the invariant. -/
theorem Inv.outside {s t : State} (hi : Inv s) (hm : Memory.wf t.mem)
    (h : t = { s with mem := t.mem, src := t.src, sinkReady := t.sinkReady, port := t.port, seen := t.seen }) :
    Inv t := by
  refine hi.same ?_ hm (fun _ => ?_) (fun _ => ?_) <;> rw [h]
  · exact ⟨rfl, rfl, rfl, rfl, rfl, rfl, rfl, rfl, rfl, rfl, rfl, rfl⟩
  · exact ⟨rfl, rfl, rfl⟩

/-- Settles O27: each way a step can go keeps the invariant, by the lemma about that way. -/
theorem stepKeepsTheInvariant : Obligations.StepKeepsTheInvariant := by
  intro s t hi h
  cases step_cases h with
  | own p _ h => exact inv_blockStep (hi.port p) h
  | command i rest _ h => exact inv_exec (hi.port rest) h
  | illegal c rest _ _ _ h => exact h ▸ inv_commandIllegal (hi.port rest) _
  | register n v rest _ _ h => exact h ▸ (hi.port rest).writeReg n v
  | outside e rest _ _ _ _ h =>
    have hm : t.mem = s.mem := by rw [h]
    exact hi.outside (hm ▸ hi.mem_wf) (by rw [h])
  | placed ci v rest _ _ h => exact hi.outside (by rw [h]; exact Memory.wf_write hi.mem_wf) (by rw [h])
  | reset rest _ h => exact h ▸ (hi.port rest).resetBlock

end Sys2Proof.Machine

namespace Sys2Proof.Machine

/-! ## The register port -/

/-! What a host read of each register returns (R19, R20, R32). -/

@[simp] theorem readReg_cmd (s : State) : readReg Config.regCmd s = 0 := rfl
@[simp] theorem readReg_status (s : State) : readReg Config.regStatus s = (statusWord s).setWidth 66 := rfl
@[simp] theorem readReg_width (s : State) : readReg Config.regWidth s = s.width.setWidth 66 := rfl
@[simp] theorem readReg_height (s : State) : readReg Config.regHeight s = s.height.setWidth 66 := rfl
@[simp] theorem readReg_plen (s : State) : readReg Config.regPlen s = s.plen.setWidth 66 := rfl
@[simp] theorem readReg_capBits (s : State) : readReg Config.regCapBits s = s.capBits := rfl
@[simp] theorem readReg_capBytes (s : State) : readReg Config.regCapBytes s = s.capBytes.setWidth 66 := rfl
@[simp] theorem readReg_leff (s : State) : readReg Config.regLeff s = s.leff.setWidth 66 := rfl
@[simp] theorem readReg_hdrLen (s : State) : readReg Config.regHdrLen s = s.hdrLen.setWidth 66 := rfl
@[simp] theorem readReg_count (s : State) : readReg Config.regCount s = s.count.setWidth 66 := rfl
@[simp] theorem readReg_ci (s : State) : readReg Config.regCi s = s.ci := rfl
@[simp] theorem readReg_overage (s : State) : readReg Config.regOverage s = s.overage.setWidth 66 := rfl

theorem readReg_reserved {n : RegNum} (h : 12 ≤ n.toNat) (s : State) : readReg n s = 0 := by
  have ne (r : RegNum) (hr : r.toNat < 12) : n ≠ r := fun e => by subst e; omega
  simp only [readReg, ne Config.regStatus (by decide), ne Config.regWidth (by decide),
    ne Config.regHeight (by decide), ne Config.regPlen (by decide), ne Config.regCapBits (by decide),
    ne Config.regCapBytes (by decide), ne Config.regLeff (by decide), ne Config.regHdrLen (by decide),
    ne Config.regCount (by decide), ne Config.regCi (by decide), ne Config.regOverage (by decide), if_false]

/-- A register whose content is widened for the host keeps its value (R18). -/
theorem toNat_readReg_of_widened {n : RegNum} {k w : Nat} {x : BitVec w} {s : State} (hk : k < 256) (hw : w ≤ 66)
    (hx : readReg (BitVec.ofNat 8 k) s = x.setWidth 66) (hn : n.toNat = k) : (readReg n s).toNat = x.toNat := by
  rw [(regNum_eq_iff hk).2 hn, hx, BitVec.toNat_setWidth_of_le hw]

/-! What a host write of a register other than CMD does (R21, R28 to R30, R32). -/

theorem writeReg_width {n : RegNum} {s : State} (hn : n.toNat = 2) (hb : busy s = false) (v : CmdWord) :
    writeReg n v s = { s with width := v } := by
  rw [(regNum_eq_iff (by omega)).2 hn]; simp [writeReg, hb]

theorem writeReg_height {n : RegNum} {s : State} (hn : n.toNat = 3) (hb : busy s = false) (v : CmdWord) :
    writeReg n v s = { s with height := v } := by
  rw [(regNum_eq_iff (by omega)).2 hn]; simp [writeReg, hb]

theorem writeReg_plen {n : RegNum} {s : State} (hn : n.toNat = 4) (hb : busy s = false) (v : CmdWord) :
    writeReg n v s = { s with plen := v } := by
  rw [(regNum_eq_iff (by omega)).2 hn]; simp [writeReg, hb]

theorem writeReg_busy {n : RegNum} {s : State} (hn : n.toNat = 2 ∨ n.toNat = 3 ∨ n.toNat = 4)
    (hb : busy s = true) (v : CmdWord) : writeReg n v s = turnAway s := by
  obtain hn | hn | hn := hn <;> rw [(regNum_eq_iff (by omega)).2 hn] <;> simp [writeReg, hb, turnAway]

/-- Every register that is not one of the three ignores the write. -/
theorem writeReg_other {n : RegNum} (hn : n.toNat ≠ 2 ∧ n.toNat ≠ 3 ∧ n.toNat ≠ 4) (v : CmdWord) (s : State) :
    writeReg n v s = s := by
  have ne (r : RegNum) (hr : n.toNat ≠ r.toNat) : n ≠ r := fun e => hr (congrArg _ e)
  obtain ⟨h2, h3, h4⟩ := hn
  simp only [writeReg, ne Config.regWidth h2, ne Config.regHeight h3, ne Config.regPlen h4, or_self, if_false]

/-- Everything such a write can do. -/
theorem writeReg_cases (n : RegNum) (v : CmdWord) (s : State) :
    ((n.toNat = 2 ∨ n.toNat = 3 ∨ n.toNat = 4) ∧ busy s = true ∧ writeReg n v s = turnAway s) ∨
    (busy s = false ∧ ∃ w h p, writeReg n v s = { s with width := w, height := h, plen := p }) ∨
    writeReg n v s = s := by
  by_cases hn : n.toNat = 2 ∨ n.toNat = 3 ∨ n.toNat = 4
  · cases hb : busy s with
    | true => exact .inl ⟨hn, rfl, writeReg_busy hn hb v⟩
    | false =>
      refine .inr (.inl ⟨rfl, ?_⟩)
      obtain hn | hn | hn := hn
      · exact ⟨v, s.height, s.plen, writeReg_width hn hb v⟩
      · exact ⟨s.width, v, s.plen, writeReg_height hn hb v⟩
      · exact ⟨s.width, s.height, v, writeReg_plen hn hb v⟩
  · exact .inr (.inr (writeReg_other (by omega) v s))

@[simp] theorem writeReg_phase (n : RegNum) (v : CmdWord) (s : State) : (writeReg n v s).phase = s.phase := by
  obtain ⟨-, -, e⟩ | ⟨-, _, _, _, e⟩ | e := writeReg_cases n v s <;> simp [e]

/-- The step when the host writes next a register that is not CMD, by its number. -/
theorem step_writeReg_of_pos {s : State} {n : RegNum} {v : CmdWord} {rest : List HostOp}
    (h : s.port = .write n v :: rest) (hn : 0 < n.toNat) :
    step s = .next (writeReg n v { s with port := rest }) :=
  step_writeReg h fun e => by subst e; exact absurd hn (by decide)

/-- Settles O18, by the read lemma of each register. -/
theorem registerReads : Obligations.RegisterReads := by
  intro s rest n h
  have named {k : Nat} {v : CarrierWord} (hk : k < 256) (hv : readReg (BitVec.ofNat 8 k) s = v)
      (hn : n.toNat = k) : (readReg n s).toNat = v.toNat := by rw [(regNum_eq_iff hk).2 hn, hv]
  exact ⟨readReg n s, step_serve h,
    named (by decide) (readReg_cmd s),
    toNat_readReg_of_widened (by decide) (by decide) (readReg_status s),
    toNat_readReg_of_widened (by decide) (by decide) (readReg_width s),
    toNat_readReg_of_widened (by decide) (by decide) (readReg_height s),
    toNat_readReg_of_widened (by decide) (by decide) (readReg_plen s),
    named (by decide) (readReg_capBits s),
    toNat_readReg_of_widened (by decide) (by decide) (readReg_capBytes s),
    toNat_readReg_of_widened (by decide) (by decide) (readReg_leff s),
    toNat_readReg_of_widened (by decide) (by decide) (readReg_hdrLen s),
    toNat_readReg_of_widened (by decide) (by decide) (readReg_count s),
    named (by decide) (readReg_ci s),
    toNat_readReg_of_widened (by decide) (by decide) (readReg_overage s),
    fun hn => by rw [readReg_reserved hn]; rfl⟩

/-- Settles O21: such a register is not one of the three that a write can change. -/
theorem otherRegisterWritesAreIgnored : Obligations.OtherRegisterWritesAreIgnored := by
  intro s rest n v h hn
  rw [step_writeReg_of_pos h (by omega), writeReg_other (by omega)]

/-! ## STATUS -/

/-- The one-bit fields of the STATUS word (R21). -/
theorem statusWord_getLsbD (s : State) :
    (statusWord s).getLsbD 4 = busy s ∧ (statusWord s).getLsbD 5 = confirmReq s ∧
      (statusWord s).getLsbD 12 = s.cmdErr := by
  have h := statusWord_toNat s
  have h0 := s.phase.code.isLt
  have h3 := s.result.code.isLt
  have bit (b : Bool) (i : Nat) (hb : (statusWord s).toNat / 2 ^ i % 2 = b.toNat) : (statusWord s).getLsbD i = b := by
    rw [BitVec.getLsbD, Nat.testBit_eq_decide_div_mod_eq, hb]
    cases b <;> rfl
  have h1 := Bool.toNat_lt (busy s)
  have h2 := Bool.toNat_lt (confirmReq s)
  have h4 := Bool.toNat_lt s.cmdErr
  exact ⟨bit _ _ (by omega), bit _ _ (by omega), bit _ _ (by omega)⟩

/-- The fields of the STATUS word of more than one bit, and its reserved bits (R21). -/
theorem statusWord_extractLsb' (s : State) :
    (statusWord s).extractLsb' 0 4 = s.phase.code ∧ (statusWord s).extractLsb' 6 2 = 0 ∧
      (statusWord s).extractLsb' 8 4 = s.result.code ∧ (statusWord s).extractLsb' 13 3 = 0 ∧
      (statusWord s).extractLsb' 16 4 = s.op ∧ (statusWord s).extractLsb' 20 12 = 0 := by
  have h := statusWord_toNat s
  have h0 := s.phase.code.isLt
  have h1 := Bool.toNat_lt (busy s)
  have h2 := Bool.toNat_lt (confirmReq s)
  have h3 := s.result.code.isLt
  have h4 := Bool.toNat_lt s.cmdErr
  have h5 := s.op.isLt
  have field {w : Nat} (x : BitVec w) (i : Nat) (hx : (statusWord s).toNat / 2 ^ i % 2 ^ w = x.toNat) :
      (statusWord s).extractLsb' i w = x := by
    apply BitVec.eq_of_toNat_eq
    rw [BitVec.extractLsb'_toNat, Nat.shiftRight_eq_div_pow, hx]
  have z (w : Nat) : (0 : BitVec w).toNat = 0 := BitVec.toNat_zero ..
  exact ⟨field _ _ (by omega), field _ _ (by rw [z]; omega), field _ _ (by omega), field _ _ (by rw [z]; omega),
    field _ _ (by omega), field _ _ (by rw [z]; omega)⟩

/-- Settles O19, from the value of the STATUS word. -/
theorem statusFields : Obligations.StatusFields := by
  refine ⟨fun s => ?_, by decide, by decide, by decide, fun s rest v h => ?_⟩
  · obtain ⟨hbusy, hconf, herr⟩ := statusWord_getLsbD s
    obtain ⟨hphase, hz6, hres, hz13, hop, hz20⟩ := statusWord_extractLsb' s
    exact ⟨hphase, by rw [hbusy, busy_eq_true], by rw [hconf, confirmReq_eq_true], hz6, hres, herr, hz13, hop, hz20⟩
  · exact otherRegisterWritesAreIgnored s rest _ v h (.inl rfl)

/-! ## What a step does to the configuration, to OP and to CMD_ERR -/

/-- OPC of a word that decodes is that of its command. -/
theorem decode_ok_opc {c : CmdWord} {i : Instr} (h : decode c = .ok i) : i.fields.opc = c.extractLsb' 0 4 := by
  unfold decode at h
  simp only at h
  split at h
  · cases h
  · rename_i j hj
    have hc : (fieldsOf c).opc = j.fields.opc := (instrOf_eq_some hj).1
    split at h
    · cases h
    · split at h
      · cases h
      · cases h; exact hc.symm

/-- The four ways in which a step can treat WIDTH, HEIGHT, PLEN, STATUS.OP and STATUS.CMD_ERR. -/
inductive StatusEffect (s t : State) : Prop where
  /-- CMD_ERR and OP stay, and while busy the configuration does. -/
  | kept (untaken : ∀ c rest, s.port = .write Config.regCmd c :: rest → busy s = true)
      (cmdErr : t.cmdErr = s.cmdErr) (op : t.op = s.op) (config : busy s = true → SameConfig s t)
  /-- A write of CMD or of the configuration, turned away while busy (R29, R64). -/
  | turnedAway (n : RegNum) (v : CmdWord) (rest : List HostOp) (how : s.port = .write n v :: rest)
      (which : n.toNat = 0 ∨ n.toNat = 2 ∨ n.toNat = 3 ∨ n.toNat = 4) (running : busy s = true)
      (h : t = turnAway { s with port := rest })
  /-- A word taken, legal or not (R61, R62). -/
  | taken (c : CmdWord) (rest : List HostOp) (how : s.port = .write Config.regCmd c :: rest)
      (free : busy s = false) (cmdErr : t.cmdErr = false) (op : t.op = c.extractLsb' 0 4)
  /-- Reset. -/
  | reset (rest : List HostOp) (how : s.port = .reset :: rest)

/-- The step of a command: turned away, taken, or the answer to the open question. -/
theorem statusEffect_command {s t : State} {i : Instr} {rest : List HostOp}
    (how : (∃ c, s.port = .write Config.regCmd c :: rest ∧ decode c = .ok i) ∨
      (∃ y, s.port = .answer y :: rest ∧ confirmReq s = true ∧ i = answerCommand y))
    (h : exec i { s with port := rest } = .next t) : StatusEffect s t := by
  have answered (hq : confirmReq s = true) (he : t.cmdErr = s.cmdErr) (ho : t.op = s.op)
      (hc : SameConfig s t) : StatusEffect s t :=
    .kept (fun _ _ _ => busy_eq_true.2 (by simp [confirmReq_eq_true.1 hq])) he ho fun _ => hc
  obtain ⟨hb, hq, rfl⟩ | ⟨hb, hi, rfl⟩ | ⟨hb, start, hs, rfl⟩ | ⟨hq, -, rfl⟩ | ⟨hq, -, rfl⟩ := exec_cases h
  · obtain ⟨c, hp, -⟩ | ⟨y, -, hasked, rfl⟩ := how
    · exact .turnedAway _ c rest hp (.inl rfl) hb rfl
    · -- an answer is served only while the question is open, and then it is not turned away
      rw [confirmReq_port, hasked] at hq
      cases y <;> simp [answerCommand] at hq
  · obtain ⟨c, hp, hd⟩ | ⟨y, -, hasked, -⟩ := how
    · refine .taken c rest hp hb rfl ?_
      rw [← decode_ok_opc hd]
      obtain rfl | rfl := hi <;> rfl
    · simp [busy, confirmReq_eq_true.1 hasked] at hb
  · obtain ⟨c, hp, hd⟩ | ⟨y, -, hasked, -⟩ := how
    · have ht := (start_takenAs hs { s with port := rest }).1
      exact .taken c rest hp hb ht.cmdErr (ht.op_eq.trans (decode_ok_opc hd))
    · simp [busy, confirmReq_eq_true.1 hasked] at hb
  · exact answered hq rfl rfl ⟨rfl, rfl, rfl⟩
  · exact answered hq rfl rfl ⟨rfl, rfl, rfl⟩

/-- Every step treats them in one of these ways. -/
theorem step_statusEffect {s t : State} (h : step s = .next t) : StatusEffect s t := by
  have unwritten {e : HostOp} {rest : List HostOp} (hp : s.port = e :: rest) (he : ∀ n v, e ≠ .write n v)
      (c : CmdWord) (r : List HostOp) (hw : s.port = .write Config.regCmd c :: r) : busy s = true :=
    absurd (List.cons.inj (hp.symm.trans hw)).1 (he _ _)
  cases step_cases h with
  | own p how h =>
    have hf := blockStep_frame h
    refine .kept (fun c rest hw => ?_) hf.cmdErr hf.op fun _ => ⟨hf.config.width, hf.config.height, hf.config.plen⟩
    obtain ⟨rfl, h | ⟨r, h⟩⟩ | h := how <;> rw [h] at hw <;> cases hw
  | command i rest how h => exact statusEffect_command how h
  | illegal c rest how _ _ h =>
    subst h
    rw [commandIllegal, busy_port]
    split
    · exact .turnedAway _ c rest how (.inl rfl) ‹_› rfl
    · exact .taken c rest how (Bool.eq_false_iff.2 ‹_›) rfl rfl
  | register n v rest how other h =>
    have hw (c : CmdWord) (r : List HostOp) (hw : s.port = .write Config.regCmd c :: r) : busy s = true := by
      rw [how] at hw; cases hw; exact absurd rfl other
    obtain ⟨hn, hb, e⟩ | ⟨hb, _, _, _, e⟩ | e := writeReg_cases n v { s with port := rest } <;> rw [e] at h
    · exact .turnedAway n v rest how (.inr hn) hb h
    · exact .kept hw (by rw [h]) (by rw [h]) fun hb' => by rw [busy_port, hb'] at hb; cases hb
    · exact .kept hw (by rw [h]) (by rw [h]) fun _ => by rw [h]; exact ⟨rfl, rfl, rfl⟩
  | outside e rest how kind _ _ h =>
    obtain ⟨-, -, hwrite, -⟩ := kind
    exact .kept (unwritten how hwrite) (by rw [h]) (by rw [h]) fun _ => by rw [h]; exact ⟨rfl, rfl, rfl⟩
  | placed ci v rest how _ h =>
    exact .kept (unwritten how (by simp)) (by rw [h]) (by rw [h]) fun _ => by rw [h]; exact ⟨rfl, rfl, rfl⟩
  | reset rest how h => exact .reset rest how

/-- Settles O20: the write lemma of each register, and that while busy no effect but reset's reaches them. -/
theorem configurationWrites : Obligations.ConfigurationWrites := by
  refine ⟨fun s rest n v h => ?_, fun s t hb hr h => ?_⟩
  · have written {t : State} (hn : 0 < n.toNat) (ht : writeReg n v { s with port := rest } = t) :
        step s = .next t := by rw [step_writeReg_of_pos h hn, ht]
    rw [← busy_port s rest]
    exact ⟨fun hb => ⟨fun hn => written (by omega) (writeReg_width hn hb v),
        fun hn => written (by omega) (writeReg_height hn hb v), fun hn => written (by omega) (writeReg_plen hn hb v)⟩,
      fun hb hn => written (by omega) (writeReg_busy hn hb v)⟩
  · cases step_statusEffect h with
    | kept _ _ _ config => exact config hb
    | turnedAway n v rest _ _ _ h => rw [h]; exact ⟨rfl, rfl, rfl⟩
    | taken c rest _ free => rw [hb] at free; cases free
    | reset rest how => exact absurd how (hr rest)

/-- Settles O23: only a write turned away sets CMD_ERR, and only a word taken or a reset clears it. -/
theorem commandErrorIsSticky : Obligations.CommandErrorIsSticky := by
  intro s t h
  cases step_statusEffect h with
  | kept _ cmdErr => rw [cmdErr]; exact ⟨fun h0 h1 => by simp [h0] at h1, fun h1 h0 => by simp [h1] at h0⟩
  | turnedAway n v rest how which running h =>
    exact ⟨fun _ _ => ⟨running, n, v, rest, how, which⟩, fun _ h0 => by simp [h] at h0⟩
  | taken c rest how free cmdErr =>
    exact ⟨fun _ h1 => by simp [cmdErr] at h1, fun _ _ => .inr ⟨free, c, rest, how⟩⟩
  | reset rest how =>
    refine ⟨fun _ h1 => ?_, fun _ _ => .inl ⟨rest, how⟩⟩
    rw [step_serve how] at h
    cases h
    simp at h1

/-- Settles O24: OP is written where a word is taken, and nowhere else but at reset. -/
theorem opIsTheLastCommandTaken : Obligations.OpIsTheLastCommandTaken := by
  refine ⟨fun s t h c rest hw hb => ?_, fun s t h hr hc => ?_, rfl⟩
  · cases step_statusEffect h with
    | kept untaken => rw [untaken c rest hw] at hb; cases hb
    | turnedAway _ _ _ _ _ running => rw [running] at hb; cases hb
    | taken c' rest' how _ _ op => rw [hw] at how; cases how; exact op
    | reset rest' how => rw [hw] at how; cases how
  · cases step_statusEffect h with
    | kept _ _ op => exact op
    | turnedAway _ _ _ _ _ _ h => rw [h, turnAway_op]
    | taken c rest how free =>
      obtain hb | hc := hc
      · rw [hb] at free; cases free
      · exact absurd how (hc c rest)
    | reset rest how => exact absurd how (hr rest)

end Sys2Proof.Machine

namespace Sys2Proof.Machine

/-! ## Rules about every reachable state -/

theorem inv_resetBlock {s : State} (hm : Memory.wf s.mem) : Inv (resetBlock s) where
  mem_wf := hm
  cap_max := by simp
  cap_bytes := by simp
  ci_le := by simp
  count_le := by simp
  busy_clean hb := by simp [busy] at hb
  phase_inv := ⟨rfl, rfl, rfl, rfl, rfl, rfl, rfl, rfl, rfl, rfl, rfl⟩

/-- Reset meets the invariant and every step keeps it, so every reachable state meets it. -/
theorem Reachable.inv {s : State} (h : Reachable s) : Inv s := by
  induction h with
  | boot s hs => exact hs.2 ▸ inv_resetBlock hs.1
  | step s t _ h ih => exact stepKeepsTheInvariant s t ih h

/-- Settles O29, from what the invariant says of the two payload phases. -/
theorem bitPositionFollowsCarrierIndex : Obligations.BitPositionFollowsCarrierIndex := by
  intro s hs
  have hpi := hs.inv.phase_inv
  refine ⟨fun hp => ?_, fun hp i hi => ?_⟩
  · obtain hp | hp := hp <;> simp only [PhaseInv, hp] at hpi <;> obtain ⟨-, hprog, -⟩ := hpi <;> exact hprog.bitpos
  · simp only [PhaseInv, hp] at hpi
    obtain ⟨-, -, hacc, -⟩ := hpi
    exact Nat.testBit_lt_two_pow (hacc.trans_le (Nat.pow_le_pow_right (by omega) hi))

/-- Settles O30, from the bounds the invariant gives. -/
theorem outputRegistersStayInBounds : Obligations.OutputRegistersStayInBounds := by
  intro s hs
  have hi := hs.inv
  refine ⟨hi.cap_max, s.capBits.isLt, hi.cap_bytes, hi.ci_le, hi.count_le, fun hp => ?_⟩
  have hpi := hi.phase_inv
  simp only [PhaseInv, hp] at hpi
  obtain ⟨-, -, hlt, hov, -⟩ := hpi
  exact ⟨hov, by omega⟩

/-! ## CMD_ERR and the block's own step -/

/-- Settles O8: the same case of each phase's step applies with CMD_ERR set. -/
theorem commandErrorNeverSteers : Obligations.CommandErrorNeverSteers := by
  intro s t h
  change blockStep (turnAway s) = .next (turnAway t)
  cases hp : s.phase with
  | idle => rw [blockStep_idle hp] at h; cases h; exact blockStep_idle hp
  | done => rw [blockStep_done hp] at h; cases h; exact blockStep_done hp
  | confirmTruncation => rw [blockStep_confirmTruncation hp] at h; cases h; exact blockStep_confirmTruncation hp
  | readCapacity =>
    rw [blockStep_readCapacity hp] at h
    rw [blockStep_readCapacity (s := turnAway s) hp]
    obtain ⟨hop, rfl⟩ | ⟨hop, hc, rfl⟩ | ⟨hop, hc, rfl⟩ := stepReadCapacity_cases h
    · exact stepReadCapacity_cap (s := turnAway s) hop
    · exact stepReadCapacity_embed_small (s := turnAway s) hop hc
    · exact stepReadCapacity_embed_big (s := turnAway s) hop hc
  | awaitPayloadSize =>
    rw [blockStep_awaitPayloadSize hp] at h
    rw [blockStep_awaitPayloadSize (s := turnAway s) hp]
    cases h
    rcases Nat.lt_or_ge s.capBytes.toNat s.plen.toNat with hlt | hle
    · rw [embedAwaitPayloadSize_over hlt, embedAwaitPayloadSize_over (s := turnAway s) hlt]; rfl
    · rw [embedAwaitPayloadSize_fits hle, embedAwaitPayloadSize_fits (s := turnAway s) hle]; rfl
  | writeHeader =>
    rw [blockStep_writeHeader hp] at h
    rw [blockStep_writeHeader (s := turnAway s) hp]
    obtain ⟨h32, hop, rfl⟩ | ⟨h32, hop, rfl⟩ | ⟨hlt, hc, rfl⟩ := stepWriteHeader_cases h
    · exact stepWriteHeader_exit_hdrenc (s := turnAway s) h32 hop
    · exact stepWriteHeader_exit_payload (s := turnAway s) h32 hop
    · exact stepWriteHeader_bit_of_lt (s := turnAway s) hlt hc
  | readHeader =>
    rw [blockStep_readHeader hp] at h
    rw [blockStep_readHeader (s := turnAway s) hp]
    obtain ⟨h32, hop, rfl⟩ | ⟨h32, hop, rfl⟩ | ⟨hlt, hc, rfl⟩ := stepReadHeader_cases h
    · exact stepReadHeader_exit_hdrdec (s := turnAway s) h32 hop
    · exact stepReadHeader_exit_payload (s := turnAway s) h32 hop
    · exact stepReadHeader_bit_of_lt (s := turnAway s) hlt hc
  | writePayload =>
    rw [blockStep_writePayload hp] at h
    rw [blockStep_writePayload (s := turnAway s) hp]
    obtain ⟨h32, ⟨he, rfl⟩ | ⟨hl, hc, ⟨hb, hsrc, rfl⟩ | ⟨b, rest, hb, hsrc, rfl⟩ | ⟨hb, rfl⟩⟩⟩ :=
      stepWritePayload_cases h
    · exact stepWritePayload_end (s := turnAway s) h32 he
    · exact stepWritePayload_held (s := turnAway t) h32 hl hc hb hsrc
    · exact stepWritePayload_first (s := turnAway s) h32 hl hc hb hsrc
    · exact stepWritePayload_next (s := turnAway s) h32 hl hc hb
  | readPayload =>
    rw [blockStep_readPayload hp] at h
    rw [blockStep_readPayload (s := turnAway s) hp]
    obtain ⟨h32, ⟨hl, rfl⟩ | ⟨hl, hc, rfl⟩ | ⟨hl, hc, ⟨hb, rfl⟩ | ⟨hb, hr, rfl⟩ | ⟨hb, hr, rfl⟩⟩⟩ :=
      stepReadPayload_cases h
    · exact stepReadPayload_complete (s := turnAway s) h32 hl
    · exact stepReadPayload_exhausted (s := turnAway s) h32 hl hc
    · exact stepReadPayload_bit (s := turnAway s) h32 hl hc hb
    · exact stepReadPayload_byte (s := turnAway s) h32 hl hc hb hr
    · exact stepReadPayload_held (s := turnAway t) h32 hl hc hb hr

/-! ## The arcs of the controller -/

/-- The ways in which a step other than reset can change STATE, or leave it. -/
theorem step_phase_cases {s t : State} (h : step s = .next t) (hr : ∀ rest, s.port ≠ .reset :: rest) :
    (∃ p, blockStep { s with port := p } = .next t) ∨ t.phase = s.phase ∨
    (busy s = false ∧ t.phase ≠ .idle ∧ t.phase ≠ .awaitPayloadSize ∧ t.phase ≠ .confirmTruncation) ∨
    (s.phase = .confirmTruncation ∧ (t.phase = .writeHeader ∨ t.phase = .done)) := by
  cases step_cases h with
  | own p _ h => exact .inl ⟨p, h⟩
  | command i rest _ h =>
    obtain ⟨-, -, rfl⟩ | ⟨hb, -, rfl⟩ | ⟨hb, start, hs, rfl⟩ | ⟨hq, -, rfl⟩ | ⟨hq, -, rfl⟩ := exec_cases h
    · exact .inr (.inl rfl)
    · exact .inr (.inr (.inl ⟨hb, by simp⟩))
    · exact .inr (.inr (.inl ⟨hb, (start_takenAs hs _).2⟩))
    · exact .inr (.inr (.inr ⟨confirmReq_eq_true.1 hq, .inr rfl⟩))
    · exact .inr (.inr (.inr ⟨confirmReq_eq_true.1 hq, .inl rfl⟩))
  | illegal c rest _ _ _ h =>
    subst h
    rw [commandIllegal, busy_port]
    split
    · exact .inr (.inl rfl)
    · exact .inr (.inr (.inl ⟨Bool.eq_false_iff.2 ‹_›, by simp⟩))
  | register n v rest _ _ h => exact .inr (.inl (by rw [h, writeReg_phase]))
  | outside e rest _ _ _ _ h => exact .inr (.inl (by rw [h]))
  | placed ci v rest _ _ h => exact .inr (.inl (by rw [h]))
  | reset rest how => exact absurd how (hr rest)

/-- Settles O37: the block's own step by STATE, and the steps that take a command or an answer. -/
theorem controllerArcs : Obligations.ControllerArcs := by
  intro s t h hr hne
  obtain ⟨p, h⟩ | hk | ⟨hb, hfirst⟩ | ⟨hq, hans⟩ := step_phase_cases h hr
  · cases hp : s.phase with
    | idle => rw [blockStep_idle (s := { s with port := p }) hp] at h; cases h; exact absurd rfl hne
    | done => rw [blockStep_done (s := { s with port := p }) hp] at h; cases h; exact absurd rfl hne
    | confirmTruncation => rw [blockStep_confirmTruncation (s := { s with port := p }) hp] at h; cases h; exact absurd rfl hne
    | readCapacity =>
      rw [blockStep_readCapacity (s := { s with port := p }) hp] at h
      obtain ⟨-, rfl⟩ | ⟨-, -, rfl⟩ | ⟨hop, -, rfl⟩ := stepReadCapacity_cases h
      · exact .inl rfl
      · exact .inl rfl
      · exact .inr ⟨rfl, hop⟩
    | awaitPayloadSize =>
      rw [blockStep_awaitPayloadSize (s := { s with port := p }) hp] at h
      cases h
      rcases Nat.lt_or_ge s.capBytes.toNat s.plen.toNat with hlt | hle
      · exact .inl (congrArg State.phase (embedAwaitPayloadSize_over (s := { s with port := p }) hlt))
      · exact .inr (congrArg State.phase (embedAwaitPayloadSize_fits (s := { s with port := p }) hle))
    | writeHeader =>
      rw [blockStep_writeHeader (s := { s with port := p }) hp] at h
      obtain ⟨h32, hop, rfl⟩ | ⟨h32, hop, rfl⟩ | ⟨-, -, rfl⟩ := stepWriteHeader_cases h
      · exact ⟨h32, .inl ⟨rfl, hop⟩⟩
      · exact ⟨h32, .inr ⟨rfl, hop⟩⟩
      · exact absurd rfl hne
    | readHeader =>
      rw [blockStep_readHeader (s := { s with port := p }) hp] at h
      obtain ⟨h32, hop, rfl⟩ | ⟨h32, hop, rfl⟩ | ⟨-, -, rfl⟩ := stepReadHeader_cases h
      · exact ⟨h32, .inl ⟨rfl, hop⟩⟩
      · exact ⟨h32, .inr ⟨rfl, hop⟩⟩
      · exact absurd rfl hne
    | writePayload =>
      rw [blockStep_writePayload (s := { s with port := p }) hp] at h
      obtain ⟨-, ⟨-, rfl⟩ | ⟨-, -, ⟨-, -, rfl⟩ | ⟨b, rest, -, -, rfl⟩ | ⟨-, rfl⟩⟩⟩ := stepWritePayload_cases h
      · exact ⟨rfl, rfl⟩
      all_goals exact absurd rfl hne
    | readPayload =>
      rw [blockStep_readPayload (s := { s with port := p }) hp] at h
      obtain ⟨-, ⟨-, rfl⟩ | ⟨-, -, rfl⟩ | ⟨-, -, ⟨-, rfl⟩ | ⟨-, -, rfl⟩ | ⟨-, -, rfl⟩⟩⟩ := stepReadPayload_cases h
      · exact ⟨rfl, .inl rfl⟩
      · exact ⟨rfl, .inr rfl⟩
      all_goals exact absurd rfl hne
  · exact absurd hk hne
  · obtain hp | hp := busy_eq_false.1 hb <;> rw [hp] <;> exact hfirst
  · rw [hq]; exact hans

end Sys2Proof.Machine

namespace Sys2Proof.Machine

/-! ## Carrier memory (20_memory.md R39) -/

/-- Settles O52, by the three laws of carrier memory. -/
theorem carrierMemoryReadAfterWrite : Obligations.CarrierMemoryReadAfterWrite :=
  ⟨fun _ k j v hm => Memory.read_write hm k j v, fun _ _ _ hm => Memory.wf_write hm,
    fun _ _ hm hn h => Memory.ext_read hm hn h⟩

/-! ## The layout behind the carrier index (20_memory.md R38) -/

theorem rowOf_carrierIndex {w : Dim} {j : Nat} (r : Nat) (h : j < rowBytes w) : rowOf w (carrierIndex w r j) = r := by
  rw [rowOf, carrierIndex, Nat.add_comm, Nat.add_mul_div_right _ _ (Nat.zero_lt_of_lt h), Nat.div_eq_of_lt h,
    Nat.zero_add]

theorem byteInRow_carrierIndex {w : Dim} {j : Nat} (r : Nat) (h : j < rowBytes w) :
    byteInRow w (carrierIndex w r j) = j := by
  rw [byteInRow, carrierIndex, Nat.mul_add_mod_self_right, Nat.mod_eq_of_lt h]

theorem carrierIndex_rowOf_byteInRow (w : Dim) (ci : Nat) : carrierIndex w (rowOf w ci) (byteInRow w ci) = ci :=
  Nat.div_add_mod' ..

/-- The bytes of the rows of the image lie below CAP_BITS. -/
theorem carrierIndex_lt_capBitsOf {w h : Dim} {r j : Nat} (hr : r < h.toNat) (hj : j < rowBytes w) :
    carrierIndex w r j < (capBitsOf w h).toNat := by
  rw [toNat_capBitsOf]
  calc carrierIndex w r j < (r + 1) * rowBytes w := by rw [carrierIndex, Nat.succ_mul]; omega
    _ ≤ h.toNat * rowBytes w := Nat.mul_le_mul_right _ hr
    _ = 3 * w.toNat * h.toNat := Nat.mul_comm ..

theorem pixelOf_lt {w : Dim} {j : Nat} (h : j < rowBytes w) : pixelOf j < w.toNat := Nat.div_lt_of_lt_mul h

/-- Settles O51: the index is a row and a remainder in base `rowBytes`, and CAP_BITS is all rows. -/
theorem carrierIndexLayout : Obligations.CarrierIndexLayout := by
  refine ⟨fun w r j h => ⟨rowOf_carrierIndex r h, byteInRow_carrierIndex r h⟩, carrierIndex_rowOf_byteInRow,
    fun w h r j hr hj => ⟨carrierIndex_lt_capBitsOf hr hj, pixelOf_lt hj⟩, fun w i hi hw => ?_, by decide⟩
  exact Nat.div_eq_of_lt (by simp only [rowBytes, Config.bytesPerPixel]; omega)

/-! ## What a step does outside the block -/

/-- What the block's own step can do to carrier memory and the streams (R40, R48, R49). -/
inductive OwnAccess (s t : State) : Prop where
  /-- None of them is touched. -/
  | none (mem : t.mem = s.mem) (src : t.src = s.src) (sink : t.sink = s.sink)
  /-- A header bit goes to the carrier at CI. -/
  | header (phase : s.phase = .writeHeader) (below : s.ci.toNat < 32) (b : Bool)
      (mem : t.mem = Memory.write s.mem s.ci.toNat (setLsb (Memory.read s.mem s.ci.toNat) b))
      (src : t.src = s.src) (sink : t.sink = s.sink)
  /-- A payload bit goes to the carrier at CI, the first one of a byte as that byte is taken from the source. -/
  | payload (phase : s.phase = .writePayload) (above : 32 ≤ s.ci.toNat)
      (more : s.ci.toNat - 32 ≠ 8 * s.leff.toNat) (inside : s.ci.toNat < s.capBits.toNat) (b : Bool)
      (mem : t.mem = Memory.write s.mem s.ci.toNat (setLsb (Memory.read s.mem s.ci.toNat) b))
      (src : t.src = s.src ∨ (s.bitpos = 0 ∧ s.src = t.acc :: t.src ∧ t.bitpos = 1)) (sink : t.sink = s.sink)
  /-- A whole payload byte goes to the sink. -/
  | delivered (phase : s.phase = .readPayload) (last : s.bitpos = 7) (ready : s.sinkReady = true)
      (mem : t.mem = s.mem) (src : t.src = s.src) (sink : ∃ b, t.sink = s.sink ++ [b])
      (bitpos : t.bitpos = 0) (acc : t.acc = 0) (count : t.count = s.count + 1)

/-- Everything the block's own step can do outside the block. -/
theorem blockStep_access {s t : State} (h : blockStep s = .next t) : OwnAccess s t := by
  cases hp : s.phase with
  | idle => rw [blockStep_idle hp] at h; cases h; exact .none rfl rfl rfl
  | done => rw [blockStep_done hp] at h; cases h; exact .none rfl rfl rfl
  | confirmTruncation => rw [blockStep_confirmTruncation hp] at h; cases h; exact .none rfl rfl rfl
  | readCapacity =>
    rw [blockStep_readCapacity hp] at h
    obtain ⟨-, rfl⟩ | ⟨-, -, rfl⟩ | ⟨-, -, rfl⟩ := stepReadCapacity_cases h <;> exact .none rfl rfl rfl
  | awaitPayloadSize =>
    rw [blockStep_awaitPayloadSize hp] at h
    cases h
    rcases Nat.lt_or_ge s.capBytes.toNat s.plen.toNat with hlt | hle
    · rw [embedAwaitPayloadSize_over hlt]; exact .none rfl rfl rfl
    · rw [embedAwaitPayloadSize_fits hle]; exact .none rfl rfl rfl
  | writeHeader =>
    rw [blockStep_writeHeader hp] at h
    obtain ⟨-, -, rfl⟩ | ⟨-, -, rfl⟩ | ⟨hlt, -, rfl⟩ := stepWriteHeader_cases h
    · exact .none rfl rfl rfl
    · exact .none rfl rfl rfl
    · exact .header hp hlt _ rfl rfl rfl
  | readHeader =>
    rw [blockStep_readHeader hp] at h
    obtain ⟨-, -, rfl⟩ | ⟨-, -, rfl⟩ | ⟨-, -, rfl⟩ := stepReadHeader_cases h <;> exact .none rfl rfl rfl
  | writePayload =>
    rw [blockStep_writePayload hp] at h
    obtain ⟨h32, ⟨-, rfl⟩ | ⟨hl, hc, ⟨-, -, rfl⟩ | ⟨b, rest, hbit, hsrc, rfl⟩ | ⟨-, rfl⟩⟩⟩ := stepWritePayload_cases h
    · exact .none rfl rfl rfl
    · exact .none rfl rfl rfl
    · refine .payload hp h32 hl hc _ rfl (.inr ⟨hbit, hsrc, ?_⟩) rfl
      rw [wrotePayloadBit, hbit]; rfl
    · exact .payload hp h32 hl hc _ rfl (.inl rfl) rfl
  | readPayload =>
    rw [blockStep_readPayload hp] at h
    obtain ⟨-, ⟨-, rfl⟩ | ⟨-, -, rfl⟩ | ⟨-, -, ⟨-, rfl⟩ | ⟨h7, hr, rfl⟩ | ⟨-, -, rfl⟩⟩⟩ := stepReadPayload_cases h
    · exact .none rfl rfl rfl
    · exact .none rfl rfl rfl
    · exact .none rfl rfl rfl
    · exact .delivered hp h7 hr rfl rfl ⟨_, rfl⟩ rfl rfl rfl
    · exact .none rfl rfl rfl

/-- What the host is going to do plays no part in it. -/
theorem OwnAccess.of_port {s t : State} {p : List HostOp} (h : OwnAccess { s with port := p } t) : OwnAccess s t := by
  cases h with
  | none mem src sink => exact .none mem src sink
  | header phase below b mem src sink => exact .header phase below b mem src sink
  | payload phase above more inside b mem src sink => exact .payload phase above more inside b mem src sink
  | delivered phase last ready mem src sink bitpos acc count =>
    exact .delivered phase last ready mem src sink bitpos acc count

/-- What a step leaves alone outside the block when the block does not take its own step. -/
structure HostFrame (s t : State) : Prop where
  mem : hostWritesCarriers s = false → t.mem = s.mem
  src : (∀ b rest, s.port ≠ .offer b :: rest) → t.src = s.src
  sink : t.sink = s.sink
  sinkReady : (∀ ready rest, s.port ≠ .setSinkReady ready :: rest) → t.sinkReady = s.sinkReady

theorem HostFrame.of_eq {s t : State} (mem : t.mem = s.mem) (src : t.src = s.src) (sink : t.sink = s.sink)
    (sinkReady : t.sinkReady = s.sinkReady) : HostFrame s t :=
  ⟨fun _ => mem, fun _ => src, sink, fun _ => sinkReady⟩

/-- No command touches carrier memory or the streams as its word is written. -/
theorem exec_hostFrame {i : Instr} {s t : State} {rest : List HostOp} (h : exec i { s with port := rest } = .next t) :
    HostFrame s t := by
  obtain ⟨-, -, rfl⟩ | ⟨-, -, rfl⟩ | ⟨-, start, hs, rfl⟩ | ⟨-, -, rfl⟩ | ⟨-, -, rfl⟩ := exec_cases h
  · exact .of_eq rfl rfl rfl rfl
  · exact .of_eq rfl rfl rfl rfl
  · have ho := (start_takenAs hs { s with port := rest }).1.outside
    exact .of_eq ho.mem ho.src ho.sink ho.sinkReady
  · exact .of_eq rfl rfl rfl rfl
  · exact .of_eq rfl rfl rfl rfl

/-- Every step is the block's own, or leaves alone outside the block what the host does not move itself. -/
theorem step_access {s t : State} (h : step s = .next t) :
    (OwnAccess s t ∧ t.sinkReady = s.sinkReady) ∨ HostFrame s t := by
  cases step_cases h with
  | own p _ h => exact .inl ⟨(blockStep_access h).of_port, (blockStep_frame h).sinkReady⟩
  | command i rest _ h => exact .inr (exec_hostFrame h)
  | illegal c rest _ _ _ h =>
    rw [commandIllegal] at h
    split at h <;> exact .inr (h ▸ .of_eq rfl rfl rfl rfl)
  | register n v rest _ _ h =>
    obtain ⟨-, -, e⟩ | ⟨-, _, _, _, e⟩ | e := writeReg_cases n v { s with port := rest } <;>
      exact .inr ((h.trans e) ▸ .of_eq rfl rfl rfl rfl)
  | outside e rest how _ source ready h =>
    refine .inr ⟨fun _ => by rw [h], fun hb => ?_, by rw [h], fun hr => ?_⟩
    · exact source.resolve_right fun ⟨b, e⟩ => hb b rest (e ▸ how)
    · exact ready.resolve_right fun ⟨r, e⟩ => hr r rest (e ▸ how)
  | placed ci v rest how _ h =>
    refine .inr ⟨fun hw => ?_, fun _ => by rw [h], by rw [h], fun _ => by rw [h]⟩
    simp [hostWritesCarriers, how] at hw
  | reset rest _ h => exact .inr (h ▸ .of_eq rfl rfl rfl rfl)

/-! ## Carrier writes (20_memory.md R40, R43) -/

/-- Writing bit 0 changes nothing, or exactly bit 0. -/
theorem setLsb_eq_or_flips (v : Byte) (b : Bool) :
    setLsb v b = v ∨ ∀ i, (setLsb v b).getLsbD i ≠ v.getLsbD i ↔ i = 0 := by
  by_cases hb : b = v.getLsbD 0
  · refine .inl (BitVec.eq_of_getLsbD_eq fun i _ => ?_)
    rw [getLsbD_setLsb]
    split
    · subst i; exact hb
    · rfl
  · refine .inr fun i => ?_
    rw [getLsbD_setLsb]
    split
    · subst i; exact iff_of_true hb rfl
    · exact iff_of_false (not_not.2 rfl) ‹_›

/-- The read-modify-write of R40 changes at most bit 0 of the carrier it is done at. -/
theorem read_carSetLsb_cases {m m' : Memory} {k : Nat} {b : Bool} (hm : Memory.wf m)
    (h : m' = Memory.write m k (setLsb (Memory.read m k) b)) (a : Nat) :
    Memory.read m' a = Memory.read m a ∨
      (a = k ∧ ∀ i, (Memory.read m' a).getLsbD i ≠ (Memory.read m a).getLsbD i ↔ i = 0) := by
  rw [h, read_carSetLsb hm]
  split
  · exact (setLsb_eq_or_flips _ b).imp_right fun hflip => ⟨‹_›, hflip⟩
  · exact .inl rfl

/-- Settles O34: the only carrier write of a step is the read-modify-write at CI. -/
theorem aStepChangesAtMostOneCarrierBit : Obligations.AStepChangesAtMostOneCarrierBit := by
  intro s t hm hw h a
  obtain ⟨hown, -⟩ | hhost := step_access h
  · cases hown with
    | none mem => exact .inl (by rw [mem])
    | header _ _ b mem => exact read_carSetLsb_cases hm mem a
    | payload _ _ _ _ b mem => exact read_carSetLsb_cases hm mem a
    | delivered _ _ _ mem => exact .inl (by rw [mem])
  · exact .inl (by rw [hhost.mem hw])

/-- Settles O35: a carrier that changes is the one at CI, and the invariant says which commands write there. -/
theorem whichCommandsWriteWhichCarriers : Obligations.WhichCommandsWriteWhichCarriers := by
  intro s t hi hw h a hne
  have hpi := hi.phase_inv
  have at_ci (b : Bool) (mem : t.mem = Memory.write s.mem s.ci.toNat (setLsb (Memory.read s.mem s.ci.toNat) b)) :
      a = s.ci.toNat := ((read_carSetLsb_cases hi.mem_wf mem a).resolve_left hne).1
  obtain ⟨hown, -⟩ | hhost := step_access h
  · cases hown with
    | none mem => exact absurd (by rw [mem]) hne
    | header phase below b mem =>
      simp only [PhaseInv, phase] at hpi
      exact .inl ⟨phase, hpi.1, at_ci b mem ▸ below⟩
    | payload phase above more inside b mem =>
      simp only [PhaseInv, phase] at hpi
      obtain ⟨hop, hprog, -⟩ := hpi
      have hlen := hprog.in_length
      exact .inr ⟨phase, hop, by rw [at_ci b mem]; omega⟩
    | delivered _ _ _ mem => exact absurd (by rw [mem]) hne
  · exact absurd (by rw [hhost.mem hw]) hne

/-! ## The streams (20_memory.md R48, R49) -/

/-- Settles O36: the block's own step moves the streams as `OwnAccess` says, and every other step only as the
host asks. -/
theorem streamsMoveOnlyInPayloadPhases : Obligations.StreamsMoveOnlyInPayloadPhases := by
  refine ⟨fun s t h hb => ?_, fun s b rest hp => step_serve hp, fun s r rest hp => step_serve hp, fun s t h hr => ?_⟩
  · obtain ⟨hown, -⟩ | hhost := step_access h
    · cases hown with
      | none _ src sink => exact ⟨.inl src, .inl sink⟩
      | header _ _ _ _ src sink => exact ⟨.inl src, .inl sink⟩
      | payload phase _ _ _ _ _ src sink => exact ⟨src.imp_right fun hs => ⟨phase, hs⟩, .inl sink⟩
      | delivered phase last ready _ src sink bitpos acc count =>
        exact ⟨.inl src, .inr ⟨phase, last, ready, bitpos, acc, count, sink⟩⟩
    · exact ⟨.inl (hhost.src hb), .inl hhost.sink⟩
  · obtain ⟨-, hown⟩ | hhost := step_access h
    · exact hown
    · exact hhost.sinkReady hr

/-! ## No fault in a state of the invariant (20_memory.md R39, 93_implementation_defined.md U8) -/

/-! With CI in range the header and payload steps have a next state. -/

theorem stepWritePayload_next_of_ge {s : State} (h32 : 32 ≤ s.ci.toNat) : ∃ t, stepWritePayload s = .next t := by
  by_cases he : s.ci.toNat - 32 = 8 * s.leff.toNat ∨ s.capBits.toNat ≤ s.ci.toNat
  · exact ⟨_, stepWritePayload_end h32 he⟩
  obtain ⟨hl, hc⟩ := not_or.1 he
  rw [Nat.not_le] at hc
  by_cases hbit : s.bitpos = 0
  · cases hsrc : s.src with
    | nil => exact ⟨_, stepWritePayload_held h32 hl hc hbit hsrc⟩
    | cons b rest => exact ⟨_, stepWritePayload_first h32 hl hc hbit hsrc⟩
  · exact ⟨_, stepWritePayload_next h32 hl hc hbit⟩

theorem stepReadPayload_next_of_ge {s : State} (h32 : 32 ≤ s.ci.toNat) : ∃ t, stepReadPayload s = .next t := by
  by_cases hl : s.ci.toNat - 32 = 8 * s.leff.toNat
  · exact ⟨_, stepReadPayload_complete h32 hl⟩
  rcases Nat.lt_or_ge s.ci.toNat s.capBits.toNat with hc | hc
  · by_cases h7 : s.bitpos = 7
    · cases hr : s.sinkReady with
      | true => exact ⟨_, stepReadPayload_byte h32 hl hc h7 hr⟩
      | false => exact ⟨_, stepReadPayload_held h32 hl hc h7 hr⟩
    · exact ⟨_, stepReadPayload_bit h32 hl hc h7⟩
  · exact ⟨_, stepReadPayload_exhausted h32 hl hc⟩

theorem stepWriteHeader_next_of_le {s : State} (h : s.ci.toNat ≤ 32) (hc : 32 ≤ s.capBits.toNat) :
    ∃ t, stepWriteHeader s = .next t := by
  obtain h | h := Nat.lt_or_eq_of_le h
  · exact ⟨_, stepWriteHeader_bit h hc⟩
  · exact ⟨_, stepWriteHeader_exit h⟩

theorem stepReadHeader_next_of_le {s : State} (h : s.ci.toNat ≤ 32) (hc : 32 ≤ s.capBits.toNat) :
    ∃ t, stepReadHeader s = .next t := by
  obtain h | h := Nat.lt_or_eq_of_le h
  · exact ⟨_, stepReadHeader_bit h hc⟩
  · exact ⟨_, stepReadHeader_exit h⟩

/-- The block's own step has a next state: the invariant keeps OP and CI within what each phase's step takes. -/
theorem blockStep_next {s : State} (hi : Inv s) : ∃ t, blockStep s = .next t := by
  have hpi := hi.phase_inv
  cases hp : s.phase <;> simp only [PhaseInv, hp] at hpi
  case idle => exact ⟨s, blockStep_idle hp⟩
  case done => exact ⟨s, blockStep_done hp⟩
  case confirmTruncation => exact ⟨s, blockStep_confirmTruncation hp⟩
  case readCapacity =>
    rw [blockStep_readCapacity hp]
    obtain ⟨hop | hop, -⟩ := hpi
    · exact ⟨_, stepReadCapacity_cap hop⟩
    · exact ⟨_, stepReadCapacity_embed hop⟩
  case awaitPayloadSize => exact ⟨_, blockStep_awaitPayloadSize hp⟩
  case writeHeader =>
    rw [blockStep_writeHeader hp]
    obtain ⟨-, hc, hci, -⟩ := hpi
    exact stepWriteHeader_next_of_le hci hc
  case readHeader =>
    rw [blockStep_readHeader hp]
    obtain ⟨-, hc, hci, -⟩ := hpi
    exact stepReadHeader_next_of_le hci hc
  case writePayload =>
    rw [blockStep_writePayload hp]
    obtain ⟨-, hprog, -⟩ := hpi
    exact stepWritePayload_next_of_ge hprog.header_done
  case readPayload =>
    rw [blockStep_readPayload hp]
    obtain ⟨-, hprog, -⟩ := hpi
    exact stepReadPayload_next_of_ge hprog.header_done

/-- Every write of a word to CMD has a next state, in every state (30_encoding.md R66). -/
theorem writeCmd_next (c : CmdWord) (s : State) : ∃ t, writeCmd c s = .next t := by
  cases hd : decode c with
  | ok i => rw [writeCmd_ok hd]; exact exec_next i s
  | error e => exact ⟨_, writeCmd_error hd s⟩

/-- Settles O28: the host's access has a next state or is the block's own step, which has one. -/
theorem invariantStatesAlwaysStep : Obligations.InvariantStatesAlwaysStep := by
  intro s hi hfree
  cases hp : s.port with
  | nil => rw [step_quiet hp]; exact blockStep_next hi
  | cons e rest =>
    rw [step_serve hp]
    cases e with
    | idle => exact blockStep_next (hi.port rest)
    | write n v =>
      simp only [serve, hostWrite]
      split
      · exact writeCmd_next v _
      · exact ⟨_, rfl⟩
    | read n => exact ⟨_, rfl⟩
    | wait =>
      simp only [serve]
      split
      · exact ⟨_, rfl⟩
      · exact blockStep_next (hi.port _)
    | answer yes =>
      simp only [serve]
      split
      · exact writeCmd_next _ _
      · exact ⟨_, rfl⟩
    | reset => exact ⟨_, rfl⟩
    | offer b => exact ⟨_, rfl⟩
    | setSinkReady r => exact ⟨_, rfl⟩
    | putCarrier ci v =>
      have hb := hfree.resolve_left (by simp [hostTouchesCarriers, hp])
      exact ⟨_, if_neg (by simp [hb])⟩
    | getCarrier ci =>
      have hb := hfree.resolve_left (by simp [hostTouchesCarriers, hp])
      exact ⟨_, if_neg (by simp [hb])⟩

end Sys2Proof.Machine

namespace Sys2Proof

/-! ## The decoder and the encoder (30_encoding.md R55 to R57) -/

/-- A word decodes to a command when its opcode names it and the checks on ANS and RSV pass. -/
theorem decode_eq_ok_iff {c : CmdWord} {i : Instr} :
    decode c = .ok i ↔ instrOf (fieldsOf c).opc (fieldsOf c).ans = some i ∧
      (fieldsOf c).ansAllowed = true ∧ (fieldsOf c).rsvClear = true := by
  rw [decode]
  cases instrOf (fieldsOf c).opc (fieldsOf c).ans with
  | none => simp
  | some j => cases (fieldsOf c).ansAllowed <;> cases (fieldsOf c).rsvClear <;> simp

theorem Instr.wf_eq_true (i : Instr) : i.wf = true := by
  cases i <;> decide

@[simp] theorem Instr.fields_ansAllowed (i : Instr) : i.fields.ansAllowed = true := by
  cases i <;> rfl

@[simp] theorem Instr.fields_rsvClear (i : Instr) : i.fields.rsvClear = true := by
  cases i <;> rfl

theorem Fields.ansAllowed_iff {f : Fields} : f.ansAllowed = true ↔ f.opc ≠ Config.opConfirm → f.ans = false := by
  simp [Fields.ansAllowed, or_iff_not_imp_right]

theorem Fields.rsvClear_iff {f : Fields} : f.rsvClear = true ↔ f.rsv = 0 := beq_iff_eq

/-- Fields that name a command and pass the checks are the command's own: only CONFIRM has a choice of ANS, and
there the opcode map reads it. -/
theorem eq_fields_of_instrOf {f : Fields} {i : Instr} (hi : instrOf f.opc f.ans = some i)
    (ha : f.ansAllowed = true) (hr : f.rsvClear = true) : f = i.fields := by
  obtain ⟨hopc, hconf⟩ := instrOf_eq_some hi
  have hans : f.ans = i.fields.ans := by
    by_cases h : i.fields.opc = Config.opConfirm
    · exact hconf h
    · rw [Fields.ansAllowed_iff.1 ha (hopc ▸ h), Fields.ansAllowed_iff.1 i.fields_ansAllowed h]
  have hrsv : f.rsv = i.fields.rsv :=
    (Fields.rsvClear_iff.1 hr).trans (Fields.rsvClear_iff.1 i.fields_rsvClear).symm
  cases f
  simp only at hopc hans hrsv
  rw [hopc, hans, hrsv]

theorem decode_encode (i : Instr) : decode (encode i) = .ok i := by
  rw [decode_eq_ok_iff, encode, fieldsOf_wordOf]
  exact ⟨instrOf_fields i, i.fields_ansAllowed, i.fields_rsvClear⟩

theorem eq_encode_of_decode {c : CmdWord} {i : Instr} (h : decode c = .ok i) : c = encode i := by
  obtain ⟨hi, hans, hrsv⟩ := decode_eq_ok_iff.1 h
  rw [encode, ← eq_fields_of_instrOf hi hans hrsv, wordOf_fieldsOf]

/-- The only word of a command is its encoding. -/
theorem decode_eq_ok_iff_eq_encode {c : CmdWord} {i : Instr} : decode c = .ok i ↔ c = encode i :=
  ⟨eq_encode_of_decode, fun h => h ▸ decode_encode i⟩

theorem decode_eq_ok_iff_toNat {c : CmdWord} {i : Instr} : decode c = .ok i ↔ c.toNat = (encode i).toNat :=
  decode_eq_ok_iff_eq_encode.trans BitVec.toNat_inj.symm

/-- Settles O3, from `decode_encode` and `eq_encode_of_decode`. -/
theorem decodeAndEncodeAgree : Obligations.DecodeAndEncodeAgree :=
  ⟨fun i => ⟨i.wf_eq_true, decode_encode i⟩, fun _ _ => eq_encode_of_decode⟩

/-- The words of the nine commands as numbers. -/
theorem decode_ok_iff_toNat (c : CmdWord) : (∃ i, decode c = .ok i) ↔
    c.toNat = 1 ∨ c.toNat = 2 ∨ c.toNat = 3 ∨ c.toNat = 4 ∨ c.toNat = 5 ∨ c.toNat = 6 ∨ c.toNat = 7 ∨
      c.toNat = 8 ∨ c.toNat = 0x18 := by
  simp only [decode_eq_ok_iff_toNat]
  constructor
  · rintro ⟨i, h⟩
    rw [h]
    cases i <;> decide
  · rintro (h | h | h | h | h | h | h | h | h)
    exacts [⟨.cap, h⟩, ⟨.hdrenc, h⟩, ⟨.hdrdec, h⟩, ⟨.pack, h⟩, ⟨.unpack, h⟩, ⟨.embed, h⟩, ⟨.extract, h⟩,
      ⟨.confirmNo, h⟩, ⟨.confirmYes, h⟩]

/-- Settles O2: the legal words as numbers, and the fields as remainders and quotients of the word. -/
theorem legalWordsAreExactlyThese : Obligations.LegalWordsAreExactlyThese := by
  intro c
  refine ⟨?_, decode_ok_iff_toNat c, decode_eq_ok_iff_toNat, decode_eq_ok_iff_toNat⟩
  have hc := c.isLt
  rw [decode_ok_iff_toNat]
  simp only [← BitVec.toNat_inj, BitVec.extractLsb'_toNat, Nat.shiftRight_eq_div_pow, BitVec.ofNat_eq_ofNat,
    BitVec.toNat_ofNat]
  omega

/-- Settles O1: each word of the table is the encoding of its command. -/
theorem tableWordsDecode : Obligations.TableWordsDecode :=
  ⟨decode_encode .cap, decode_encode .hdrenc, decode_encode .hdrdec, decode_encode .pack, decode_encode .unpack,
    decode_encode .embed, decode_encode .extract, decode_encode .confirmNo, decode_encode .confirmYes⟩

end Sys2Proof

namespace Sys2Proof.Machine

/-! ## A word written to CMD (30_encoding.md R59 to R66) -/

theorem commandIllegal_busy {s : State} (h : busy s = true) (opc : BitVec 4) :
    commandIllegal opc s = turnAway s := by rw [commandIllegal, if_pos h]

theorem commandIllegal_ready {s : State} (h : busy s = false) (opc : BitVec 4) :
    commandIllegal opc s = takeIllegal opc s := by rw [commandIllegal, if_neg (by simp [h])]

theorem confirmReq_eq_false {s : State} : confirmReq s = false ↔ s.phase ≠ .confirmTruncation := by
  rw [Bool.eq_false_iff, ne_eq, confirmReq_eq_true]

/-- While an operation runs, every word but an answer to the open question is turned away (R64). -/
theorem writeCmd_turnedAway {s : State} {c : CmdWord} (hb : busy s = true)
    (h : confirmReq s = false ∨ (c ≠ encode .confirmNo ∧ c ≠ encode .confirmYes)) :
    writeCmd c s = .next (turnAway s) := by
  cases hd : decode c with
  | error e => rw [writeCmd_error hd, commandIllegal_busy hb]
  | ok i =>
    obtain rfl := decode_eq_ok_iff_eq_encode.1 hd
    rw [writeCmd_ok hd]
    obtain ⟨t, ht⟩ := exec_next i s
    obtain ⟨-, -, rfl⟩ | ⟨hb', -⟩ | ⟨hb', -⟩ | ⟨hq, rfl, -⟩ | ⟨hq, rfl, -⟩ := exec_cases ht
    · exact ht
    · rw [hb] at hb'; cases hb'
    · rw [hb] at hb'; cases hb'
    · simp [hq] at h
    · simp [hq] at h

/-- With no operation running, an illegal word and CONFIRM end at once with IllegalCommand (R61). -/
theorem writeCmd_takenIllegal {s : State} {c : CmdWord} (hb : busy s = false)
    (h : (∀ i, decode c ≠ .ok i) ∨ c = encode .confirmNo ∨ c = encode .confirmYes) :
    writeCmd c s = .next (takeIllegal (c.extractLsb' 0 4) s) := by
  have hq : confirmReq s = false :=
    confirmReq_eq_false.2 fun hp => by simp [busy, hp] at hb
  have confirm {i : Instr} (hi : exec i s = .next (commandIllegal i.fields.opc s)) (hc : c = encode i) :
      writeCmd c s = .next (takeIllegal (c.extractLsb' 0 4) s) := by
    have hd := decode_eq_ok_iff_eq_encode.2 hc
    rw [writeCmd_ok hd, hi, decode_ok_opc hd, commandIllegal_ready hb]
  obtain hbad | hc | hc := h
  · cases hd : decode c with
    | error e => rw [writeCmd_error hd, commandIllegal_ready hb]
    | ok i => exact absurd hd (hbad i)
  · exact confirm (congrArg _ (confirmWith_unasked hq declineTruncation)) hc
  · exact confirm (congrArg _ (confirmWith_unasked hq acceptTruncation)) hc

/-- STATUS after an illegal command: OP, IllegalCommand and DONE, with BUSY, CONFIRM_REQ and CMD_ERR clear. -/
theorem statusWord_takeIllegal_toNat (opc : BitVec 4) (s : State) :
    (statusWord (takeIllegal opc s)).toNat = opc.toNat * 2 ^ 16 + 0x408 := by
  simp [statusWord_toNat, confirmReq, busy, Result.code, Phase.code]

/-- Settles O5, from `writeCmd_takenIllegal`. -/
theorem illegalCommandWhenNotBusy : Obligations.IllegalCommandWhenNotBusy := by
  intro s rest c hport hphase hc
  refine ⟨takeIllegal (c.extractLsb' 0 4) { s with port := rest }, ?_, rfl, ?_⟩
  · rw [step_write hport]
    exact writeCmd_takenIllegal (busy_eq_false.2 hphase) hc
  · rintro rfl
    exact BitVec.eq_of_toNat_eq ((statusWord_takeIllegal_toNat _ _).trans (by decide))

/-- Settles O6: an answer to the open question runs, every other word is turned away. -/
theorem commandWhileBusy : Obligations.CommandWhileBusy := by
  intro s rest c hport hidle hdone
  rw [step_write hport]
  refine ⟨fun _ hc => writeCmd_ok (decode_eq_ok_iff_eq_encode.2 hc) _,
    fun _ hc => writeCmd_ok (decode_eq_ok_iff_eq_encode.2 hc) _, fun h => ?_⟩
  exact writeCmd_turnedAway (busy_eq_true.2 ⟨hidle, hdone⟩) (h.imp_left confirmReq_eq_false.2)

/-- Settles O7, from `writeCmd_next`. -/
theorem everyCommandWordHasANextState : Obligations.EveryCommandWordHasANextState := by
  intro s rest c hport
  rw [step_write hport]
  exact writeCmd_next c _

/-- `withFetchWord` with a whole command word is a host write of it to CMD. -/
theorem withFetchWord_toNat (s : State) (c : CmdWord) : s.withFetchWord 32 c.toNat = pushCommand c s := by
  rw [State.withFetchWord, Nat.mod_eq_of_lt c.isLt, BitVec.ofNat_toNat, BitVec.setWidth_eq]

/-- Settles O4: the step that writes a word which decodes runs its command. -/
theorem stepRunsTheDecodedCommand : Obligations.StepRunsTheDecodedCommand := by
  refine ⟨fun s rest c i hport hd => ?_, fun s i => ?_⟩
  · rw [step_write hport, writeCmd_ok hd]
  · rw [withFetchWord_toNat, step_write (pushCommand_port _ s), writeCmd_ok (decode_encode i)]
    rfl

/-! ## Taking a command (30_encoding.md R62, R63) -/

/-- With no operation running, a command starts in the state its start function leaves. -/
theorem startsAs_of_start {i : Instr} {start : State → State} {s t : State} (hi : startOf i = some start)
    (hb : busy s = false) (ht : start s = t) :
    StartsAs i i.fields.opc s t.result t.phase t.leff t.ci.toNat := by
  subst ht
  exact ⟨start s, by rw [exec_start hi, commandWith_ready hb], (start_takenAs hi s).1, rfl, rfl, rfl, rfl⟩

/-- Settles O9: CAP and EMBED start alike in every state, and the undersized check decides for the other five. -/
theorem takingALegalCommand : Obligations.TakingALegalCommand := by
  intro s hphase
  have hb := busy_eq_false.2 hphase
  have hcap (op : BitVec 4) : (take op s).capBits.toNat = 3 * s.width.toNat * s.height.toNat :=
    (take_takenAs op s).capBits
  refine ⟨startsAs_of_start (i := .cap) rfl hb rfl, startsAs_of_start (i := .embed) rfl hb rfl,
    fun hbig => ?_, fun hsmall => ?_⟩
  · have big (op : BitVec 4) (t : State) : unlessUndersized (take op s) t = t :=
      unlessUndersized_big (by rwa [hcap])
    exact ⟨startsAs_of_start (i := .hdrenc) rfl hb (big _ _), startsAs_of_start (i := .hdrdec) rfl hb (big _ _),
      startsAs_of_start (i := .pack) rfl hb (big _ _), startsAs_of_start (i := .unpack) rfl hb (big _ _),
      startsAs_of_start (i := .extract) rfl hb (big _ _)⟩
  · have small (op : BitVec 4) (t : State) :
        unlessUndersized (take op s) t = finish .undersizedCarrier (take op s) :=
      unlessUndersized_small (by rwa [hcap])
    exact ⟨startsAs_of_start (i := .hdrenc) rfl hb (small _ _), startsAs_of_start (i := .hdrdec) rfl hb (small _ _),
      startsAs_of_start (i := .pack) rfl hb (small _ _), startsAs_of_start (i := .unpack) rfl hb (small _ _),
      startsAs_of_start (i := .extract) rfl hb (small _ _)⟩

/-! ## Waiting (30_encoding.md R65, 44_embed.md R107, 60_exceptions.md R136) -/

/-- A state that steps to itself is left by no run. -/
theorem run_of_step_self {s : State} (h : step s = .next s) (k : Nat) : run k s = .next s := by
  induction k with
  | zero => exact run_zero s
  | succ k ih => rw [run_succ h, ih]

/-- Settles O13: in each of the three states the block's own step is a wait. -/
theorem waitingStatesStay : Obligations.WaitingStatesStay := by
  intro s hport hphase
  refine run_of_step_self ?_
  rw [step_quiet hport]
  obtain h | h | h := hphase
  · exact blockStep_idle h
  · exact blockStep_done h
  · exact blockStep_confirmTruncation h

/-! ## No cancellation (30_encoding.md R60) -/

/-- A running operation goes on undisturbed: only CMD_ERR, which is not cleared, and the host's side of the
machine may differ once the access is taken off the port. -/
def Undisturbed (s t : State) (rest : List HostOp) : Prop :=
  t = { s with port := rest, cmdErr := t.cmdErr, src := t.src, sinkReady := t.sinkReady, seen := t.seen } ∧
    (s.cmdErr = true → t.cmdErr = true)

theorem undisturbed_turnAway (s : State) (rest : List HostOp) :
    Undisturbed s (turnAway { s with port := rest }) rest := ⟨rfl, fun _ => rfl⟩

/-- Settles O22: of what a step can do, such an access leaves a refused write and the host's own moves. -/
theorem noCancellation : Obligations.NoCancellation := by
  intro s t e rest hport hb hreset hidle hwait hanswer h
  change Undisturbed s t rest
  have served {e' : HostOp} {r : List HostOp} (how : s.port = e' :: r) : e' = e ∧ r = rest :=
    List.cons.inj (how.symm.trans hport)
  have refused {c : CmdWord} (he : e = .write Config.regCmd c) : t = turnAway { s with port := rest } := by
    subst he
    rw [step_write hport, writeCmd_turnedAway (by exact hb) ?_] at h
    · exact (Host.Outcome.next.inj h).symm
    · refine or_iff_not_imp_left.2 fun hq => ?_
      obtain ⟨-, hno, hyes⟩ := hanswer (confirmReq_eq_true.1 (Bool.eq_true_of_not_eq_false hq))
      exact ⟨fun hc => hno (congrArg _ hc), fun hc => hyes (congrArg _ hc)⟩
  cases step_cases h with
  | own p how =>
    obtain ⟨rfl, hp | ⟨r, hp⟩⟩ | hp := how
    · rw [hport] at hp; cases hp
    · exact absurd (served hp).1.symm hwait
    · exact absurd (served hp).1.symm hidle
  | command i r how =>
    obtain ⟨c, how, -⟩ | ⟨y, how, hq, -⟩ := how
    · exact refused (served how).1.symm ▸ undisturbed_turnAway s rest
    · exact absurd (served how).1.symm ((hanswer (confirmReq_eq_true.1 hq)).1 y)
  | illegal c r how => exact refused (served how).1.symm ▸ undisturbed_turnAway s rest
  | register n v r how _ ht =>
    obtain ⟨-, rfl⟩ := served how
    obtain ⟨-, -, e⟩ | ⟨hb', -⟩ | e := writeReg_cases n v { s with port := r }
    · rw [ht, e]; exact undisturbed_turnAway s r
    · rw [busy_port, hb] at hb'; cases hb'
    · rw [ht, e]; exact ⟨rfl, id⟩
  | outside e' r how _ _ _ ht =>
    obtain ⟨-, rfl⟩ := served how
    rw [ht]; exact ⟨rfl, id⟩
  | placed _ _ _ _ free => rw [hb] at free; cases free
  | reset r how => exact absurd (served how).1.symm hreset

/-! ## Host programs (30_encoding.md R67, R68) -/

theorem step_answer_asked {s : State} {y : Bool} {rest : List HostOp} (h : s.port = .answer y :: rest)
    (hq : confirmReq s = true) : step s = exec (answerCommand y) { s with port := rest } := by
  rw [step_serve h, serve, if_pos (by exact hq), writeCmd_ok (decode_answer y)]

theorem step_answer_unasked {s : State} {y : Bool} {rest : List HostOp} (h : s.port = .answer y :: rest)
    (hq : confirmReq s = false) : step s = .next { s with port := rest } := by
  rw [step_serve h, serve, if_neg (by simp [hq])]

/-- Settles O53: each pseudo-operation expands to its lines, and the two conditional operations by STATUS. -/
theorem pseudoOperationsExpand : Obligations.PseudoOperationsExpand := by
  refine ⟨fun w h => rfl, fun n => rfl, fun i => rfl, rfl, rfl, fun s rest h => ⟨fun hw => ?_, fun hb hq => ?_⟩,
    fun s rest h hq => step_answer_asked h (confirmReq_eq_true.2 hq),
    fun s rest h hq => step_answer_asked h (confirmReq_eq_true.2 hq),
    fun s yes rest h hq => step_answer_unasked h (confirmReq_eq_false.2 hq)⟩
  · refine step_wait_over h ?_
    obtain hb | hq := hw
    · simp [waitOver, hb]
    · simp [waitOver, confirmReq_eq_true.2 hq]
  · exact step_unattended (.inr ⟨rest, h⟩) hb (confirmReq_eq_false.2 hq)

/-- `.cm` places byte `j` at index `ci + j`. -/
theorem placeFrom_getElem? (ci : CarrierWord) (bytes : List Byte) (j : Nat) :
    (placeFrom ci bytes)[j]? = bytes[j]?.map (HostOp.putCarrier (ci + BitVec.ofNat 66 j)) := by
  induction bytes generalizing ci j with
  | nil => rfl
  | cons b bs ih =>
    cases j with
    | zero => simp [placeFrom]
    | succ j =>
      have hk : ci + 1 + BitVec.ofNat 66 j = ci + BitVec.ofNat 66 (j + 1) := by
        rw [BitVec.add_assoc, Nat.add_comm j, BitVec.ofNat_add]; rfl
      simp only [placeFrom, List.getElem?_cons_succ, ih, hk]

/-- The first `.cm` or `.src` line of a program comes before all else. -/
theorem assemble_append_setup {before : List AsmLine} {l : AsmLine} (hb : ∀ x ∈ before, x.isSetup = false)
    (hl : l.isSetup = true) (after : List AsmLine) :
    assemble (before ++ l :: after) = assemble [l] ++ assemble (before ++ after) := by
  have hnone : before.filter AsmLine.isSetup = [] := List.filter_eq_nil_iff.2 fun x hx => by simp [hb x hx]
  simp [assemble, hnone, hl]

/-- Settles O55, from the law of each of the two lines and `assemble_append_setup`. -/
theorem setupLinesComeFirst : Obligations.SetupLinesComeFirst := by
  refine ⟨fun ci bytes hfit => ⟨by rw [assemble_cm, placeFrom_length], fun j hj => ?_⟩, assemble_src,
    fun before after l hl hbefore => ?_⟩
  · refine ⟨ci + BitVec.ofNat 66 j, ?_, ?_⟩
    · rw [BitVec.toNat_add, BitVec.toNat_ofNat, Nat.add_mod_mod, Nat.mod_eq_of_lt (by omega)]
    · rw [assemble_cm, placeFrom_getElem?, List.getElem?_eq_getElem hj, List.getD_eq_getElem _ _ hj]
      rfl
  · refine assemble_append_setup (fun x hx => ?_) (isSetup_eq_true.2 hl) after
    obtain ⟨hcm, hsrc⟩ := hbefore x hx
    rw [Bool.eq_false_iff, ne_eq, isSetup_eq_true]
    rintro (⟨ci, bytes, e⟩ | ⟨bytes, e⟩)
    · exact hcm ci bytes e
    · exact hsrc bytes e

end Sys2Proof.Machine

namespace Sys2Proof.Machine

/-! ## The capacity calculator (40_capacity.md R72 to R77) -/

theorem capBitsOf_comm (w h : Dim) : capBitsOf w h = capBitsOf h w :=
  BitVec.eq_of_toNat_eq (by rw [toNat_capBitsOf, toNat_capBitsOf, Nat.mul_right_comm])

theorem capBitsOf_eq_zero {w h : Dim} (h0 : w = 0 ∨ h = 0) : capBitsOf w h = 0 := by
  apply BitVec.eq_of_toNat_eq
  rw [toNat_capBitsOf]
  obtain rfl | rfl := h0 <;> simp

theorem toNat_capBitsOf_mono {w w' h h' : Dim} (hw : w.toNat ≤ w'.toNat) (hh : h.toNat ≤ h'.toNat) :
    (capBitsOf w h).toNat ≤ (capBitsOf w' h').toNat := by
  rw [toNat_capBitsOf, toNat_capBitsOf]
  exact Nat.mul_le_mul (Nat.mul_le_mul_left 3 hw) hh

theorem toNat_capBytesOf_mono {c c' : CarrierWord} (h : c.toNat ≤ c'.toNat) :
    (capBytesOf c).toNat ≤ (capBytesOf c').toNat := by
  rw [toNat_capBytesOf, toNat_capBytesOf]
  exact Nat.div_le_div_right h

/-- The header takes four of the bytes of CAP_BYTES (R74); below 32 carriers both sides are 0. -/
theorem usableBytes_eq (c : CarrierWord) : usableBytes c = (capBytesOf c).toNat - 4 := by
  rw [toNat_capBytesOf, usableBytes, Config.headerBits, Config.bitsPerPayloadByte]
  omega

/-- Settles O50: CAP_BITS is the exact product and CAP_BYTES its exact quotient by 8, both monotone. -/
theorem capacityLaws : Obligations.CapacityLaws := by
  refine ⟨fun w h => ?_, fun w w' h hw => ?_, fun w h h' hh => ?_⟩
  · have hbits := toNat_capBitsOf w h
    have hbytes := toNat_capBytesOf (capBitsOf w h)
    have hdvd : 3 ∣ (capBitsOf w h).toNat := by
      rw [hbits, Nat.mul_assoc]
      exact Nat.dvd_mul_right 3 _
    exact ⟨hbits, capBitsOf_comm w h, hdvd, by omega, by omega, fun _ => usableBytes_eq _⟩
  · have hbits := toNat_capBitsOf_mono hw h.toNat.le_refl
    exact ⟨hbits, toNat_capBytesOf_mono hbits⟩
  · have hbits := toNat_capBitsOf_mono w.toNat.le_refl hh
    exact ⟨hbits, toNat_capBytesOf_mono hbits⟩

/-- Settles O11, by the three answers of the READ_CAPACITY step. -/
theorem readCapacityStep : Obligations.ReadCapacityStep := by
  intro s hport hphase
  rw [step_quiet hport, blockStep_readCapacity hphase]
  exact ⟨stepReadCapacity_cap, stepReadCapacity_embed_small, stepReadCapacity_embed_big⟩

/-- What CAP leaves: the registers as taking it wrote them, and STATE at DONE (R75, R76). -/
def capDone (s : State) : State := { take Config.opCap s with phase := .done }

theorem capDone_takenAs (s : State) : TakenAs Config.opCap s (capDone s) :=
  (take_takenAs _ s).first_state _ .done _ _

@[simp] theorem capDone_capBits (s : State) : (capDone s).capBits = capBitsOf s.width s.height := rfl
@[simp] theorem capDone_capBytes (s : State) : (capDone s).capBytes = capBytesOf (capBitsOf s.width s.height) := rfl

/-- OP is CAP and STATE is DONE; RESULT, CMD_ERR, BUSY and CONFIRM_REQ are clear. -/
theorem statusWord_capDone (s : State) : statusWord (capDone s) = 0x00010008 := by
  apply BitVec.eq_of_toNat_eq
  simp [statusWord_toNat, capDone, confirmReq, busy, Result.code, Phase.code]

/-- CAP is the step that takes it and the READ_CAPACITY step. -/
theorem run_cap {s : State} (hport : s.port = [.write Config.regCmd 0x00000001])
    (hphase : s.phase = .idle ∨ s.phase = .done) : run 2 s = .next (capDone { s with port := [] }) := by
  have htake : step s = .next (startCap { s with port := [] }) :=
    step_take hport tableWordsDecode.1 rfl hphase
  have hread : step (startCap { s with port := [] }) = .next (capDone { s with port := [] }) :=
    (readCapacityStep _ rfl rfl).1 rfl
  rw [run_succ htake, run_succ hread, run_zero]

/-- Settles O38: the state CAP ends in is `capDone`, and its capacity is that of the image. -/
theorem capOperation : Obligations.CapOperation := by
  intro s hport hphase
  refine ⟨_, run_cap hport hphase, rfl, rfl, capDone_takenAs _, rfl, rfl, statusWord_capDone _, ?_⟩
  simp only [capDone_capBits, capDone_capBytes]
  refine ⟨fun h0 => ?_, fun hw hh => ?_, fun hw hh => ?_, fun hw hh => ?_⟩
  · rw [capBitsOf_eq_zero h0]
    decide
  all_goals
    rw [hw, hh]
    decide

end Sys2Proof.Machine

namespace Sys2Proof.Machine

/-! ## The length header (41_header.md R78 to R86) -/

/-- Settles O14: the two ends of the phase, and the read-modify-write at CI in between. -/
theorem writeHeaderStep : Obligations.WriteHeaderStep := by
  intro s hport hphase hm hc
  rw [step_quiet hport, blockStep_writeHeader hphase]
  refine ⟨stepWriteHeader_exit_hdrenc, stepWriteHeader_exit_payload, fun hlt =>
    ⟨_, stepWriteHeader_bit hlt hc, toNat_succ hlt (by omega), fun a => ?_, rfl⟩⟩
  rw [read_carSetLsb hm]
  split
  · subst a; rfl
  · rfl

/-- Settles O15: the two ends of the phase, and the bit or-ed in at CI in between. -/
theorem readHeaderStep : Obligations.ReadHeaderStep := by
  intro s hport hphase hc
  rw [step_quiet hport, blockStep_readHeader hphase]
  refine ⟨stepReadHeader_exit_hdrdec, stepReadHeader_exit_payload, fun hlt =>
    ⟨_, stepReadHeader_bit hlt hc, toNat_succ hlt (by omega), fun i => ?_, rfl⟩⟩
  rw [getLsbD_orBit _ _ _ _ hlt]
  by_cases hi : i = s.ci.toNat
  · subst i; rfl
  · simp only [decide_eq_false hi, Bool.false_and]

/-- Settles O31: the invariant says it of the header phases, and of the payload phases that CI, which is at
least 32 there, is within the carriers. -/
theorem carrierPhasesHaveAFullHeader : Obligations.CarrierPhasesHaveAFullHeader := by
  intro s hs hphase
  have hpi := hs.inv.phase_inv
  have full (h : PayloadProgress s) : 32 ≤ s.capBits.toNat := h.header_done.trans h.in_carriers
  obtain hp | hp | hp | hp := hphase <;> simp only [PhaseInv, hp] at hpi <;> obtain ⟨-, h, -⟩ := hpi
  · exact h
  · exact h
  · exact full h
  · exact full h

/-! HDRENC and HDRDEC with 32 or more carriers, as a whole: the step that takes the command, the 32 carriers, and the
step to DONE. -/

/-- What HDRENC leaves: the registers as taking it wrote them, LEFF and CI as the header phase needed them, STATE at
DONE, and `m` in carrier memory (R79, R80). -/
def hdrencDone (s : State) (m : Memory) : State :=
  { take Config.opHdrenc s with phase := .done, leff := s.plen, ci := 32, mem := m }

/-- What HDRDEC leaves: the registers as taking it wrote them, STATE at DONE, CI past the header and `len` in
HDR_LEN (R83, R84). -/
def hdrdecDone (s : State) (len : Len) : State :=
  { take Config.opHdrdec s with phase := .done, ci := 32, hdrLen := len }

/-- What carrier memory reads as once a header is written (R78). -/
def HeaderWritten (len : Len) (m m' : Memory) : Prop :=
  ∀ a, Memory.read m' a = if a < 32 then setLsb (Memory.read m a) (len.getLsbD a) else Memory.read m a

/-- What a header read from carrier memory is (R81). -/
def HeaderRead (len : Len) (m : Memory) : Prop :=
  ∀ i, i < 32 → len.getLsbD i = (Memory.read m i).getLsbD 0

/-- R82: the header read back is the header written. -/
theorem HeaderRead.eq_of_written {len len' : Len} {m m' : Memory} (hr : HeaderRead len' m')
    (hw : HeaderWritten len m m') : len' = len := by
  refine BitVec.eq_of_getLsbD_eq fun i hi => ?_
  rw [hr i hi, hw i, if_pos hi, getLsbD_setLsb, if_pos rfl]

/-- Writing a header changes no bit but bit 0 of the first 32 carriers. -/
theorem HeaderWritten.getLsbD_read {len : Len} {m m' : Memory} (h : HeaderWritten len m m') {a i : Nat}
    (hai : 32 ≤ a ∨ 0 < i) : (Memory.read m' a).getLsbD i = (Memory.read m a).getLsbD i := by
  rw [h a]
  split
  · rw [getLsbD_setLsb, if_neg (by omega)]
  · rfl

/-- The header phase of HDRENC, from the state that taking it leaves. -/
theorem run_startHdrenc {s : State} (hu : Unattended s) (hm : Memory.wf s.mem)
    (hc : 32 ≤ 3 * s.width.toNat * s.height.toNat) :
    ∃ m, run 33 (startHdrenc s) = .next (hdrencDone s m) ∧ HeaderWritten s.plen s.mem m := by
  have hcap : 32 ≤ (take Config.opHdrenc s).capBits.toNat := (take_takenAs _ s).capBits ▸ hc
  rw [startHdrenc, unlessUndersized_big hcap]
  obtain ⟨t, hrun, hci, -, hread, ht⟩ := run_headerWritten
    (s := { take Config.opHdrenc s with leff := s.plen, phase := .writeHeader })
    (unattended_congr hu rfl) rfl hm hcap rfl
  rw [show t.ci = 32 from BitVec.eq_of_toNat_eq hci] at ht
  exact ⟨t.mem, hrun.trans (congrArg _ ht), hread⟩

/-- The header phase of HDRDEC, from the state that taking it leaves. -/
theorem run_startHdrdec {s : State} (hu : Unattended s) (hc : 32 ≤ 3 * s.width.toNat * s.height.toNat) :
    ∃ len, run 33 (startHdrdec s) = .next (hdrdecDone s len) ∧ HeaderRead len s.mem := by
  have hcap : 32 ≤ (take Config.opHdrdec s).capBits.toNat := (take_takenAs _ s).capBits ▸ hc
  rw [startHdrdec, unlessUndersized_big hcap]
  obtain ⟨t, hrun, hci, hread, ht⟩ := run_headerRead (s := { take Config.opHdrdec s with phase := .readHeader })
    (unattended_congr hu rfl) rfl hcap rfl rfl
  rw [show t.ci = 32 from BitVec.eq_of_toNat_eq hci] at ht
  exact ⟨t.hdrLen, hrun.trans (congrArg _ ht), hread⟩

theorem run_hdrenc {s : State} {rest : List HostOp} (hport : s.port = issue .hdrenc :: rest)
    (hu : Unattended { s with port := rest }) (hphase : s.phase = .idle ∨ s.phase = .done) (hm : Memory.wf s.mem)
    (hc : 32 ≤ 3 * s.width.toNat * s.height.toNat) :
    ∃ m, run 34 s = .next (hdrencDone { s with port := rest } m) ∧ HeaderWritten s.plen s.mem m := by
  rw [run_succ (step_take hport (decode_encode .hdrenc) rfl hphase)]
  exact run_startHdrenc hu hm hc

theorem run_hdrdec {s : State} {rest : List HostOp} (hport : s.port = issue .hdrdec :: rest)
    (hu : Unattended { s with port := rest }) (hphase : s.phase = .idle ∨ s.phase = .done)
    (hc : 32 ≤ 3 * s.width.toNat * s.height.toNat) :
    ∃ len, run 34 s = .next (hdrdecDone { s with port := rest } len) ∧ HeaderRead len s.mem := by
  rw [run_succ (step_take hport (decode_encode .hdrdec) rfl hphase)]
  exact run_startHdrdec hu hc

/-- Settles O39: HDRENC ends in `hdrencDone`, with the header written. -/
theorem hdrencOperation : Obligations.HdrencOperation := by
  intro s hport hphase hm hc
  obtain ⟨m, hrun, hwritten⟩ := run_hdrenc hport (.inl rfl) hphase hm hc
  exact ⟨_, hrun, rfl, rfl, rfl, rfl, rfl, rfl, rfl, rfl, rfl, ⟨rfl, rfl, rfl⟩, hwritten, rfl, rfl⟩

/-- Settles O40: HDRDEC ends in `hdrdecDone`, with the header read. -/
theorem hdrdecOperation : Obligations.HdrdecOperation := by
  intro s hport hphase hc
  obtain ⟨len, hrun, hread⟩ := run_hdrdec hport (.inl rfl) hphase hc
  exact ⟨_, hrun, rfl, rfl, rfl, rfl, hread, rfl, rfl, rfl, rfl, ⟨rfl, rfl, rfl⟩, rfl, rfl, rfl, rfl, rfl, rfl⟩

/-- The wait after a finished operation takes one step (log entry 12). -/
theorem run_append_wait {s t : State} {k : Nat} {rest : List HostOp} (hrun : run k s = .next t)
    (hport : t.port = .wait :: rest) (hdone : t.phase = .done) : run (k + 1) s = .next { t with port := rest } := by
  rw [run_add hrun, run_succ (step_wait_over hport (waitOver_done hdone)), run_zero]

/-- Settles O41: HDRDEC reads the header that HDRENC wrote, in the memory HDRENC left. -/
theorem headerFidelity : Obligations.HeaderFidelity := by
  intro s hport hphase hm hc
  obtain ⟨m, henc, hwritten⟩ := run_hdrenc hport (.inr ⟨_, rfl⟩) hphase hm hc
  have hencoded := run_append_wait henc rfl rfl
  obtain ⟨len, hdec, hread⟩ := run_hdrdec (s := { hdrencDone s m with port := [issue .hdrdec, .wait] }) rfl
    (.inr ⟨_, rfl⟩) (.inr rfl) hc
  have hdecoded := run_append_wait hdec rfl rfl
  exact ⟨_, (run_add hencoded 35).trans hdecoded, rfl, rfl, hread.eq_of_written hwritten,
    fun _ _ => hwritten.getLsbD_read⟩

end Sys2Proof.Machine

namespace Sys2Proof.Machine

/-! ## The packer (42_packer.md R88 to R95) -/

/-- Settles O16: the end of the phase, the held step, and the read-modify-write at CI with a bit of the byte that
comes from the source or of the one in ACC. -/
theorem writePayloadStep : Obligations.WritePayloadStep := by
  intro s hport hphase hm h32
  rw [step_quiet hport, blockStep_writePayload hphase]
  refine ⟨stepWritePayload_end h32, fun hmore hlt =>
    ⟨stepWritePayload_held h32 hmore hlt, fun b rest hzero hsrc => ?_, fun hpos => ?_⟩⟩
  · have hbitpos : s.bitpos + 1 = 1 := by rw [hzero]; rfl
    exact ⟨_, stepWritePayload_first h32 hmore hlt hzero hsrc, toNat_succ_of_lt hlt, hbitpos,
      fun a => read_carSetLsb hm _ a _, rfl⟩
  · exact ⟨_, stepWritePayload_next h32 hmore hlt hpos, toNat_succ_of_lt hlt, toNat_bitpos_succ _,
      fun a => read_carSetLsb hm _ a _, rfl⟩

/-! PACK with 32 or more carriers, as a whole: the step that takes the command, the `M` carriers, and the step to
DONE. -/

/-- What carrier memory reads as once the first `M` bits of `bytes` are written from carrier 32 on (R90, R95). -/
def PayloadWritten (bytes : List Byte) (M : Nat) (m m' : Memory) : Prop :=
  ∀ a, Memory.read m' a =
    if 32 ≤ a ∧ a < 32 + M then setLsb (Memory.read m a) (payloadBit bytes (a - 32)) else Memory.read m a

/-- How many bits PACK writes: all those of PLEN bytes, or as many as there are carriers after the header (`M` of R92). -/
def packedBits (s : State) : Nat := min (8 * s.plen.toNat) (3 * s.width.toNat * s.height.toNat - 32)

/-- What PACK leaves: the registers as taking it wrote them, STATE at DONE, the report, CI past the last carrier
written, the bytes taken gone from the source, `p` in BITPOS, `a` in ACC and `m` in carrier memory (R89 to R93). -/
def packDone (s : State) (p : BitVec 3) (a : Byte) (m : Memory) : State :=
  { take Config.opPack s with
    phase := .done, leff := s.plen, count := s.plen, ci := BitVec.ofNat 66 (32 + packedBits s), bitpos := p, acc := a
    mem := m, src := s.src.drop ((packedBits s + 7) / 8) }

/-- CI holds the index past the last carrier written: nothing wraps. -/
theorem toNat_packDone_ci {s : State} (hc : 32 ≤ 3 * s.width.toNat * s.height.toNat) (p : BitVec 3) (a : Byte)
    (m : Memory) : (packDone s p a m).ci.toNat = 32 + packedBits s := by
  have hcap := capacity_lt s.width s.height
  have hbits : packedBits s ≤ 3 * s.width.toNat * s.height.toNat - 32 := Nat.min_le_right _ _
  exact Nat.mod_eq_of_lt (by omega)

/-- The payload phase of PACK, from the state that taking it leaves. -/
theorem run_startPack {s : State} (hu : Unattended s) (hm : Memory.wf s.mem)
    (hc : 32 ≤ 3 * s.width.toNat * s.height.toNat) (hb : (packedBits s + 7) / 8 ≤ s.src.length) :
    ∃ p a m, run (packedBits s + 1) (startPack s) = .next (packDone s p a m) ∧
      PayloadWritten s.src (packedBits s) s.mem m := by
  have hbits := (take_takenAs Config.opPack s).capBits
  have hcap : 32 ≤ (take Config.opPack s).capBits.toNat := hbits ▸ hc
  rw [startPack, unlessUndersized_big hcap]
  obtain ⟨t, hrun, hci, -, hread, hsrc, ht⟩ := run_packPhase (M := packedBits s)
    (s := { take Config.opPack s with
      leff := s.plen, ci := BitVec.ofNat 66 Config.payloadStart, phase := .writePayload })
    (unattended_congr hu rfl) ⟨rfl, hm, rfl, rfl, rfl, absurd rfl⟩ hcap (by rw [packedBits, ← hbits]) hb
  have hci' : t.ci = BitVec.ofNat 66 (32 + packedBits s) := by rw [← hci, BitVec.ofNat_toNat, BitVec.setWidth_eq]
  rw [hci', hsrc] at ht
  exact ⟨t.bitpos, t.acc, t.mem, hrun.trans (congrArg _ ht), hread⟩

theorem run_pack {s : State} {rest : List HostOp} (hport : s.port = issue .pack :: rest)
    (hu : Unattended { s with port := rest }) (hphase : s.phase = .idle ∨ s.phase = .done) (hm : Memory.wf s.mem)
    (hc : 32 ≤ 3 * s.width.toNat * s.height.toNat) (hb : (packedBits s + 7) / 8 ≤ s.src.length) :
    ∃ p a m, run (packedBits s + 2) s = .next (packDone { s with port := rest } p a m) ∧
      PayloadWritten s.src (packedBits s) s.mem m := by
  rw [run_succ (step_take hport (decode_encode .pack) rfl hphase)]
  exact run_startPack hu hm hc hb

/-- Settles O42: PACK ends in `packDone`, with the payload bits written. -/
theorem packOperation : Obligations.PackOperation := by
  intro s M hport hphase hm hc hM hb
  subst hM
  obtain ⟨p, a, m, hrun, hwritten⟩ := run_pack hport (.inl rfl) hphase hm hc hb
  exact ⟨_, hrun, rfl, rfl, rfl, rfl, rfl, toNat_packDone_ci (s := { s with port := [] }) hc p a m, ⟨rfl, rfl, rfl⟩,
    hwritten, rfl, rfl⟩

end Sys2Proof.Machine

namespace Sys2Proof.Machine

/-! ## The unpacker (43_unpacker.md R96 to R103) -/

/-- Before its last value BITPOS goes up by one and does not go round (R97). -/
theorem toNat_bitpos_succ_of_ne {p : BitVec 3} (h : p ≠ 7) : (p + 1).toNat = p.toNat + 1 := by
  have hlt := p.isLt
  have hne : p.toNat ≠ 7 := fun e => h (BitVec.eq_of_toNat_eq e)
  rw [toNat_bitpos_succ]
  omega

/-- Settles O17: the two ends of the phase, and ACC with the bit of the carrier at CI kept, given to the sink, or
held. -/
theorem readPayloadStep : Obligations.ReadPayloadStep := by
  intro s hport hphase h32
  rw [step_quiet hport, blockStep_readPayload hphase]
  refine ⟨stepReadPayload_complete h32, stepReadPayload_exhausted h32, fun hmore hlt =>
    ⟨nextAcc s, getLsbD_accumulate _ _ _, fun hpos => ?_, fun hlast hready => ?_,
      stepReadPayload_held h32 hmore hlt⟩⟩
  · exact ⟨_, stepReadPayload_bit h32 hmore hlt hpos, toNat_succ_of_lt hlt, toNat_bitpos_succ_of_ne hpos, rfl, rfl⟩
  · exact ⟨_, stepReadPayload_byte h32 hmore hlt hlast hready, toNat_succ_of_lt hlt, rfl, rfl, rfl, rfl⟩

/-! UNPACK with 32 or more carriers, as a whole: the step that takes the command, the `packedBits` carriers that PACK
would write, and the step to DONE. -/

/-- Of those carriers only whole payload bytes come out (R99). -/
theorem packedBits_div_eight (s : State) :
    packedBits s / 8 = min s.plen.toNat ((3 * s.width.toNat * s.height.toNat - 32) / 8) := by
  rw [packedBits]
  omega

theorem packedBits_of_fits {s : State} (h : 32 + 8 * s.plen.toNat ≤ 3 * s.width.toNat * s.height.toNat) :
    packedBits s = 8 * s.plen.toNat := Nat.min_eq_left (by omega)

/-- What UNPACK leaves: the registers as taking it wrote them, STATE at DONE, OK where the payload fits and
IncompleteExtraction where it does not, the whole bytes counted and given to the sink, CI past the last carrier read,
`p` in BITPOS and `a` in ACC (R97 to R100). -/
def unpackDone (s : State) (p : BitVec 3) (a : Byte) : State :=
  { take Config.opUnpack s with
    phase := .done
    result := if 8 * s.plen.toNat ≤ 3 * s.width.toNat * s.height.toNat - 32 then .ok else .incompleteExtraction
    leff := s.plen, count := BitVec.ofNat 32 (packedBits s / 8), ci := BitVec.ofNat 66 (32 + packedBits s)
    bitpos := p, acc := a, sink := s.sink ++ carriedBytes s.mem 0 (packedBits s / 8) }

/-- CI stands where PACK leaves it: past the last carrier, and nothing wraps. -/
theorem toNat_unpackDone_ci {s : State} (hc : 32 ≤ 3 * s.width.toNat * s.height.toNat) (p : BitVec 3) (a : Byte) :
    (unpackDone s p a).ci.toNat = 32 + packedBits s :=
  toNat_packDone_ci hc p a s.mem

/-- COUNT holds the number of whole bytes: nothing wraps. -/
theorem toNat_unpackDone_count (s : State) (p : BitVec 3) (a : Byte) :
    (unpackDone s p a).count.toNat = packedBits s / 8 := by
  have hplen := s.plen.isLt
  have hbits : packedBits s ≤ 8 * s.plen.toNat := Nat.min_le_left _ _
  exact Nat.mod_eq_of_lt (by omega)

theorem unpackDone_result_of_fits {s : State} (h : 32 + 8 * s.plen.toNat ≤ 3 * s.width.toNat * s.height.toNat)
    (p : BitVec 3) (a : Byte) : (unpackDone s p a).result = .ok :=
  if_pos (Nat.le_sub_of_add_le' h)

theorem unpackDone_sink_of_fits {s : State} (h : 32 + 8 * s.plen.toNat ≤ 3 * s.width.toNat * s.height.toNat)
    (p : BitVec 3) (a : Byte) : (unpackDone s p a).sink = s.sink ++ carriedBytes s.mem 0 s.plen.toNat := by
  rw [unpackDone, packedBits_of_fits h, Nat.mul_div_cancel_left _ (by decide)]

/-- The payload phase of UNPACK, from the state that taking it leaves. -/
theorem run_startUnpack {s : State} (hu : Unattended s) (hready : s.sinkReady = true)
    (hc : 32 ≤ 3 * s.width.toNat * s.height.toNat) :
    ∃ p a, run (packedBits s + 1) (startUnpack s) = .next (unpackDone s p a) := by
  have hbits := (take_takenAs Config.opUnpack s).capBits
  have hcap : 32 ≤ (take Config.opUnpack s).capBits.toNat := hbits ▸ hc
  rw [startUnpack, unlessUndersized_big hcap]
  obtain ⟨t, hrun, hci, hcount, hsink, ht⟩ := run_unpackPhase (M := packedBits s)
    (s := { take Config.opUnpack s with
      leff := s.plen, ci := BitVec.ofNat 66 Config.payloadStart, phase := .readPayload })
    (unattended_congr hu rfl) ⟨rfl, hready, rfl, rfl, rfl, rfl⟩ hcap (by rw [packedBits, ← hbits])
  have hci' : t.ci = BitVec.ofNat 66 (32 + packedBits s) := by rw [← hci, BitVec.ofNat_toNat, BitVec.setWidth_eq]
  have hcount' : t.count = BitVec.ofNat 32 (packedBits s / 8) := by
    rw [← hcount, BitVec.ofNat_toNat, BitVec.setWidth_eq]
  rw [hci', hcount', hsink, hbits] at ht
  exact ⟨t.bitpos, t.acc, hrun.trans (congrArg _ ht)⟩

theorem run_unpack {s : State} {rest : List HostOp} (hport : s.port = issue .unpack :: rest)
    (hu : Unattended { s with port := rest }) (hphase : s.phase = .idle ∨ s.phase = .done)
    (hready : s.sinkReady = true) (hc : 32 ≤ 3 * s.width.toNat * s.height.toNat) :
    ∃ p a, run (packedBits s + 2) s = .next (unpackDone { s with port := rest } p a) := by
  rw [run_succ (step_take hport (decode_encode .unpack) rfl hphase)]
  exact run_startUnpack hu hready hc

/-- A byte that the carriers hold is made of bits 0 of its eight carriers (R98). -/
theorem getLsbD_getD_carriedBytes (m : Memory) {n j b : Nat} (hj : j < n) (hb : b < 8) :
    ((carriedBytes m 0 n).getD j 0).getLsbD b = (Memory.read m (32 + 8 * j + b)).getLsbD 0 := by
  rw [getD_carriedBytes m hj, Nat.zero_add, getLsbD_carriedBits m j le_rfl, decide_eq_true hb, Bool.true_and]
  rfl

/-- Settles O43: UNPACK ends in `unpackDone`, which gives the sink the bytes that the carriers hold. -/
theorem unpackOperation : Obligations.UnpackOperation := by
  intro s M hport hphase hready hc hM
  subst hM
  obtain ⟨p, a, hrun⟩ := run_unpack hport (.inl rfl) hphase hready hc
  have hcount := toNat_unpackDone_count { s with port := [] } p a
  refine ⟨_, carriedBytes s.mem 0 (packedBits s / 8), hrun, rfl, rfl, rfl, rfl,
    toNat_unpackDone_ci (s := { s with port := [] }) hc p a, hcount.trans (packedBits_div_eight s), rfl,
    (length_carriedBytes ..).trans hcount.symm, fun j b hj hb => ?_, rfl, rfl, ⟨rfl, rfl, rfl⟩⟩
  rw [length_carriedBytes] at hj
  exact getLsbD_getD_carriedBytes s.mem hj hb

/-- The bytes packed into the carriers are the bytes the carriers then hold (R103). -/
theorem PayloadWritten.carriedBytes_eq_take {bytes : List Byte} {M n : Nat} {m m' : Memory}
    (h : PayloadWritten bytes M m m') (hn : 8 * n ≤ M) (hlen : n ≤ bytes.length) :
    carriedBytes m' 0 n = bytes.take n := by
  refine carriedBytes_eq hlen fun i h32 hlt => ?_
  rw [h i, if_pos ⟨h32, by omega⟩, lsb_setLsb]

/-- Settles O44: UNPACK gives the sink what the carriers hold, which is what PACK wrote. -/
theorem packUnpackRoundTrip : Obligations.PackUnpackRoundTrip := by
  intro s hport hphase hm hfits hlen
  have hbits := packedBits_of_fits hfits
  obtain ⟨p, a, m, hpack, hwritten⟩ := run_pack hport (.inl rfl) hphase hm (by omega) (by omega)
  rw [hbits] at hpack hwritten
  refine ⟨_, hpack, rfl, rfl, fun u huport huphase hready (hmem : u.mem = m) hwidth hheight hplen => ?_⟩
  rw [← hwidth, ← hheight, ← hplen] at hfits
  obtain ⟨p', a', hunpack⟩ := run_unpack huport (.inl rfl) huphase hready (by omega)
  have hbits' : packedBits u = 8 * s.plen.toNat := by rw [packedBits_of_fits hfits, hplen]
  rw [hbits'] at hunpack
  refine ⟨_, hunpack, rfl, unpackDone_result_of_fits (s := { u with port := [] }) hfits p' a', ?_⟩
  calc (unpackDone { u with port := [] } p' a').sink
      = u.sink ++ carriedBytes m 0 s.plen.toNat := by
        rw [unpackDone_sink_of_fits (s := { u with port := [] }) hfits, hmem, hplen]
    _ = u.sink ++ s.src.take s.plen.toNat := by rw [hwritten.carriedBytes_eq_take le_rfl hlen]

end Sys2Proof.Machine

namespace Sys2Proof.Machine

/-! ## The embed controller (44_embed.md R104 to R115) -/

/-- A step with the host standing by is the block's own (30_encoding.md R65). -/
theorem step_idle {s : State} {rest : List HostOp} (h : s.port = .idle :: rest) :
    step s = blockStep { s with port := rest } := by
  rw [step_serve h, serve]

/-! The answers to the truncation question (R109, R110). -/

theorem exec_confirmNo_asked {s : State} (h : s.phase = .confirmTruncation) :
    exec .confirmNo s = .next (declineTruncation s) :=
  congrArg _ (confirmWith_asked (confirmReq_eq_true.2 h) declineTruncation)

theorem exec_confirmYes_asked {s : State} (h : s.phase = .confirmTruncation) :
    exec .confirmYes s = .next (acceptTruncation s) :=
  congrArg _ (confirmWith_asked (confirmReq_eq_true.2 h) acceptTruncation)

/-- A CAP_BYTES that PLEN exceeds has 32 bits: nothing is cut off. -/
theorem toNat_capBytes_setWidth {b : CapBytesWord} {plen : Len} (h : b.toNat < plen.toNat) :
    (b.setWidth 32).toNat = b.toNat := by
  rw [BitVec.toNat_setWidth]
  exact Nat.mod_eq_of_lt (h.trans plen.isLt)

/-- OVERAGE is at most PLEN, so it has 32 bits too. -/
theorem toNat_overage (plen : Len) (n : Nat) : (BitVec.ofNat 32 (plen.toNat - n)).toNat = plen.toNat - n := by
  rw [BitVec.toNat_ofNat]
  exact Nat.mod_eq_of_lt ((Nat.sub_le ..).trans_lt plen.isLt)

/-- Settles O10: the question is open, so CONFIRM answers it, and the clamped length has 32 bits. -/
theorem confirmAnswersTheQuestion : Obligations.ConfirmAnswersTheQuestion := by
  intro s hphase hover
  exact ⟨exec_confirmNo_asked hphase, acceptTruncation s, exec_confirmYes_asked hphase,
    toNat_capBytes_setWidth hover, rfl⟩

/-- Settles O12, by the two sides of the comparison. -/
theorem awaitPayloadSizeStep : Obligations.AwaitPayloadSizeStep := by
  intro s hport hphase
  rw [step_quiet hport, blockStep_awaitPayloadSize hphase]
  refine ⟨fun hover => ?_, fun hfits => congrArg _ (embedAwaitPayloadSize_fits hfits)⟩
  have hoverage := toNat_overage s.plen s.capBytes.toNat
  exact ⟨_, congrArg _ (embedAwaitPayloadSize_over hover), hoverage, by rw [hoverage]; omega, rfl⟩

/-! EMBED as a whole: the states it goes through before it works on carriers, whatever the host's plan is. -/

/-- EMBED ended by an image that cannot hold a header (R105). -/
def embedUndersized (s : State) : State := { take Config.opEmbed s with phase := .done, result := .undersizedCarrier }

/-- EMBED with the capacity found to hold a header (R105). -/
def embedAwaiting (s : State) : State := { take Config.opEmbed s with phase := .awaitPayloadSize }

/-- EMBED with the truncation question open (R106). -/
def embedAsked (s : State) : State :=
  { take Config.opEmbed s with
    phase := .confirmTruncation
    overage := BitVec.ofNat 32 (s.plen.toNat - (capBytesOf (capBitsOf s.width s.height)).toNat) }

/-- EMBED about to write the header of `len`, with `excess` in OVERAGE (R111). -/
def embedWriting (s : State) (len excess : Len) : State :=
  { take Config.opEmbed s with phase := .writeHeader, leff := len, overage := excess }

theorem blockStep_startEmbed_small {s : State} (hc : 3 * s.width.toNat * s.height.toNat < 32) :
    blockStep (startEmbed s) = .next (embedUndersized s) :=
  (blockStep_readCapacity rfl).trans
    (stepReadCapacity_embed_small rfl ((take_takenAs Config.opEmbed s).capBits.trans_lt hc))

theorem blockStep_startEmbed_big {s : State} (hc : 32 ≤ 3 * s.width.toNat * s.height.toNat) :
    blockStep (startEmbed s) = .next (embedAwaiting s) :=
  (blockStep_readCapacity rfl).trans
    (stepReadCapacity_embed_big rfl (hc.trans_eq (take_takenAs Config.opEmbed s).capBits.symm))

theorem blockStep_embedAwaiting_over {s : State} (h : 3 * s.width.toNat * s.height.toNat / 8 < s.plen.toNat) :
    blockStep (embedAwaiting s) = .next (embedAsked s) :=
  (blockStep_awaitPayloadSize rfl).trans
    (congrArg _ (embedAwaitPayloadSize_over ((take_takenAs Config.opEmbed s).capBytes.trans_lt h)))

theorem blockStep_embedAwaiting_fits {s : State} (h : s.plen.toNat ≤ 3 * s.width.toNat * s.height.toNat / 8) :
    blockStep (embedAwaiting s) = .next (embedWriting s s.plen 0) :=
  (blockStep_awaitPayloadSize rfl).trans
    (congrArg _ (embedAwaitPayloadSize_fits (h.trans_eq (take_takenAs Config.opEmbed s).capBytes.symm)))

theorem toNat_embedAsked_overage (s : State) :
    (embedAsked s).overage.toNat = s.plen.toNat - 3 * s.width.toNat * s.height.toNat / 8 := by
  rw [embedAsked, toNat_overage, toNat_capBytesOf, toNat_capBitsOf]

/-- EMBED on an image of fewer than 32 carriers is the step that takes it and the READ_CAPACITY step. -/
theorem run_embed_undersized {s : State} (hport : s.port = [issue .embed])
    (hphase : s.phase = .idle ∨ s.phase = .done) (hsmall : 3 * s.width.toNat * s.height.toNat < 32) :
    run 2 s = .next (embedUndersized { s with port := [] }) := by
  have htake : step s = .next (startEmbed { s with port := [] }) :=
    step_take hport (decode_encode .embed) rfl hphase
  have hread : step (startEmbed { s with port := [] }) = .next (embedUndersized { s with port := [] }) :=
    (step_quiet rfl).trans (blockStep_startEmbed_small hsmall)
  rw [run_succ htake, run_succ hread, run_zero]

/-- EMBED declined is the step that takes it, two steps of its own that open the question, and the answer. -/
theorem run_embed_declined {s : State} (hport : s.port = [issue .embed, .idle, .idle, issue .confirmNo])
    (hphase : s.phase = .idle ∨ s.phase = .done) (hc : 32 ≤ 3 * s.width.toNat * s.height.toNat)
    (hover : 3 * s.width.toNat * s.height.toNat / 8 < s.plen.toNat) :
    run 4 s = .next (declineTruncation (embedAsked { s with port := [] })) := by
  have htake : step s = .next (startEmbed { s with port := [.idle, .idle, issue .confirmNo] }) :=
    step_take hport (decode_encode .embed) rfl hphase
  have hread (p : List HostOp) :
      step (startEmbed { s with port := .idle :: p }) = .next (embedAwaiting { s with port := p }) :=
    (step_idle rfl).trans (blockStep_startEmbed_big (s := { s with port := p }) hc)
  have hask (p : List HostOp) :
      step (embedAwaiting { s with port := .idle :: p }) = .next (embedAsked { s with port := p }) :=
    (step_idle rfl).trans (blockStep_embedAwaiting_over (s := { s with port := p }) hover)
  have hanswer : step (embedAsked { s with port := [issue .confirmNo] }) =
      .next (declineTruncation (embedAsked { s with port := [] })) :=
    (step_write rfl).trans ((writeCmd_ok (decode_encode .confirmNo) _).trans (exec_confirmNo_asked rfl))
  rw [run_succ htake, run_succ (hread _), run_succ (hask _), run_succ hanswer, run_zero]

/-- Settles O46: the undersized image ends EMBED in its second step, and the answer "no" in its fourth. -/
theorem embedThatWritesNothing : Obligations.EmbedThatWritesNothing := by
  refine ⟨fun s hport hphase hsmall => ?_, fun s hport hphase hc hover => ?_⟩
  · exact ⟨_, run_embed_undersized hport hphase hsmall, rfl, rfl,
      (take_takenAs _ _).first_state .undersizedCarrier .done _ _, rfl, rfl⟩
  · exact ⟨_, run_embed_declined hport hphase hc hover, rfl, rfl, rfl, rfl, rfl, rfl,
      (take_takenAs Config.opEmbed s).capBytes, toNat_embedAsked_overage _, ⟨rfl, rfl, rfl⟩,
      ⟨rfl, rfl, rfl, rfl, rfl, rfl⟩⟩

/-! EMBED as a whole: the header, the payload, and the step to DONE. -/

/-- How many bits of a payload of `len` bytes the carriers after the header hold: those that PACK would write. -/
def payloadBits (s : State) (len : Len) : Nat := packedBits { s with plen := len }

theorem payloadBits_eq (s : State) (len : Len) :
    payloadBits s len = min (8 * len.toNat) (3 * s.width.toNat * s.height.toNat - 32) := rfl

/-- EMBED with the header written, about to write the payload, and `m` in carrier memory (R112). -/
def embedPacking (s : State) (len excess : Len) (m : Memory) : State :=
  { embedWriting s len excess with phase := .writePayload, ci := 32, mem := m }

/-- What EMBED leaves: what PACK of `len` bytes leaves, apart from OP, PLEN and OVERAGE (R113, R114). -/
def embedDone (s : State) (len excess : Len) (p : BitVec 3) (a : Byte) (m : Memory) : State :=
  { packDone { s with plen := len } p a m with op := Config.opEmbed, plen := s.plen, overage := excess }

/-- What carrier memory is once EMBED has written the header of `len` and `M` bits of `bytes` (R111, R112). -/
def EmbedWritten (len : Len) (bytes : List Byte) (M : Nat) (m m' : Memory) : Prop :=
  ∃ h, HeaderWritten len m h ∧ PayloadWritten bytes M h m'

/-- Header and payload lie in different carriers (20_memory.md R43). -/
theorem EmbedWritten.read_eq {len : Len} {bytes : List Byte} {M : Nat} {m m' : Memory}
    (hw : EmbedWritten len bytes M m m') (a : Nat) : Memory.read m' a =
      if a < 32 then setLsb (Memory.read m a) (len.getLsbD a)
      else if a < 32 + M then setLsb (Memory.read m a) (payloadBit bytes (a - 32)) else Memory.read m a := by
  obtain ⟨h, hheader, hpayload⟩ := hw
  rw [hpayload a, hheader a]
  by_cases ha : a < 32
  · rw [if_neg (by omega), if_pos ha, if_pos ha]
  · simp only [if_neg ha, Nat.not_lt.1 ha, true_and]

/-- The header that a reader finds is the one EMBED wrote (R115). -/
theorem EmbedWritten.headerRead {len : Len} {bytes : List Byte} {M : Nat} {m m' : Memory}
    (hw : EmbedWritten len bytes M m m') : HeaderRead len m' := by
  intro i hi
  rw [hw.read_eq, if_pos hi, getLsbD_setLsb, if_pos rfl]

/-- The whole bytes that a reader finds are those EMBED wrote (R115). -/
theorem EmbedWritten.carriedBytes_eq_take {len : Len} {bytes : List Byte} {M n : Nat} {m m' : Memory}
    (hw : EmbedWritten len bytes M m m') (hn : 8 * n ≤ M) (hlen : n ≤ bytes.length) :
    carriedBytes m' 0 n = bytes.take n := by
  obtain ⟨_, -, hpayload⟩ := hw
  exact hpayload.carriedBytes_eq_take hn hlen

/-- The header phase of EMBED. -/
theorem run_embedWriting {s : State} (hu : Unattended s) (hm : Memory.wf s.mem)
    (hc : 32 ≤ 3 * s.width.toNat * s.height.toNat) (len excess : Len) :
    ∃ m, run 33 (embedWriting s len excess) = .next (embedPacking s len excess m) ∧ Memory.wf m ∧
      HeaderWritten len s.mem m := by
  obtain ⟨t, hrun, hci, hwf, hread, ht⟩ := run_headerWritten (s := embedWriting s len excess)
    (unattended_congr hu rfl) rfl hm (hc.trans_eq (take_takenAs Config.opEmbed s).capBits.symm) rfl
  rw [show t.ci = 32 from BitVec.eq_of_toNat_eq hci] at ht
  exact ⟨t.mem, hrun.trans (congrArg _ ht), hwf, hread⟩

/-- The payload phase of EMBED. -/
theorem run_embedPacking {s : State} {len excess : Len} {m : Memory} (hu : Unattended s) (hm : Memory.wf m)
    (hc : 32 ≤ 3 * s.width.toNat * s.height.toNat) (hb : (payloadBits s len + 7) / 8 ≤ s.src.length) :
    ∃ p a m', run (payloadBits s len + 1) (embedPacking s len excess m) = .next (embedDone s len excess p a m') ∧
      PayloadWritten s.src (payloadBits s len) m m' := by
  have hbits := (take_takenAs Config.opEmbed s).capBits
  obtain ⟨t, hrun, hci, -, hread, hsrc, ht⟩ := run_packPhase (M := payloadBits s len)
    (s := embedPacking s len excess m) (unattended_congr hu rfl) ⟨rfl, hm, rfl, rfl, rfl, absurd rfl⟩
    (hc.trans_eq hbits.symm) (congrArg (fun c => min (8 * len.toNat) (c - 32)) hbits.symm) hb
  rw [(BitVec.toNat_eq_nat.1 hci).2, hsrc] at ht
  exact ⟨t.bitpos, t.acc, t.mem, hrun.trans (congrArg _ ht), hread⟩

/-- The two phases of EMBED that work on carriers. -/
theorem run_embedCarriers {s : State} {len excess : Len} (hu : Unattended s) (hm : Memory.wf s.mem)
    (hc : 32 ≤ 3 * s.width.toNat * s.height.toNat) (hb : (payloadBits s len + 7) / 8 ≤ s.src.length) :
    ∃ p a m, run (payloadBits s len + 34) (embedWriting s len excess) = .next (embedDone s len excess p a m) ∧
      EmbedWritten len s.src (payloadBits s len) s.mem m := by
  obtain ⟨h, hheader, hwf, hheaderWritten⟩ := run_embedWriting hu hm hc len excess
  obtain ⟨p, a, m, hpayload, hpayloadWritten⟩ := run_embedPacking (excess := excess) hu hwf hc hb
  refine ⟨p, a, m, ?_, h, hheaderWritten, hpayloadWritten⟩
  rw [show payloadBits s len + 34 = 33 + (payloadBits s len + 1) by omega, run_add hheader, hpayload]

/-- The READ_CAPACITY step of an EMBED that the host leaves alone (R105). -/
theorem step_startEmbed {s : State} (hu : Unattended s) (hc : 32 ≤ 3 * s.width.toNat * s.height.toNat) :
    step (startEmbed s) = .next (embedAwaiting s) :=
  (step_of_phase (s := startEmbed s) (p := .readCapacity) (unattended_congr hu rfl) rfl (by decide)).trans
    (blockStep_startEmbed_big hc)

/-- EMBED without a question, from the state that taking it leaves (R105, R106). -/
theorem run_startEmbed_fits {s : State} (hu : Unattended s) (hm : Memory.wf s.mem)
    (hc : 32 ≤ 3 * s.width.toNat * s.height.toNat) (hfits : s.plen.toNat ≤ 3 * s.width.toNat * s.height.toNat / 8)
    (hb : (packedBits s + 7) / 8 ≤ s.src.length) :
    ∃ p a m, run (packedBits s + 36) (startEmbed s) = .next (embedDone s s.plen 0 p a m) ∧
      EmbedWritten s.plen s.src (packedBits s) s.mem m := by
  have hawait := (step_of_phase (s := embedAwaiting s) (p := .awaitPayloadSize) (unattended_congr hu rfl) rfl
    (by decide)).trans (blockStep_embedAwaiting_fits hfits)
  rw [run_succ (step_startEmbed hu hc), run_succ hawait]
  exact run_embedCarriers hu hm hc hb

theorem run_embed {s : State} {rest : List HostOp} (hport : s.port = issue .embed :: rest)
    (hu : Unattended { s with port := rest }) (hphase : s.phase = .idle ∨ s.phase = .done) (hm : Memory.wf s.mem)
    (hc : 32 ≤ 3 * s.width.toNat * s.height.toNat) (hfits : s.plen.toNat ≤ 3 * s.width.toNat * s.height.toNat / 8)
    (hb : (packedBits s + 7) / 8 ≤ s.src.length) :
    ∃ p a m, run (packedBits s + 37) s = .next (embedDone { s with port := rest } s.plen 0 p a m) ∧
      EmbedWritten s.plen s.src (packedBits s) s.mem m := by
  rw [run_succ (step_take hport (decode_encode .embed) rfl hphase)]
  exact run_startEmbed_fits hu hm hc hfits hb

/-- Settles O45: EMBED ends in `embedDone`, with header and payload written. -/
theorem embedOperation : Obligations.EmbedOperation := by
  intro s M hport hphase hm hc hfits hM hb
  subst hM
  obtain ⟨p, a, m, hrun, hwritten⟩ := run_embed hport (.inl rfl) hphase hm hc hfits hb
  exact ⟨_, hrun, rfl, rfl, rfl, rfl, rfl, toNat_packDone_ci (s := { s with port := [] }) hc p a m, rfl,
    ⟨rfl, rfl, rfl⟩, hwritten.read_eq, rfl, rfl⟩

end Sys2Proof.Machine

namespace Sys2Proof.Machine

/-! ## The extract controller as a whole (45_extract.md R116 to R120) -/

/-- What EXTRACT leaves where the header is `len`: what UNPACK of `len` bytes leaves, apart from OP, PLEN and
HDR_LEN. -/
def extractDone (s : State) (len : Len) (p : BitVec 3) (a : Byte) : State :=
  { unpackDone { s with plen := len } p a with op := Config.opExtract, plen := s.plen, hdrLen := len }

/-- EXTRACT with the header `len` read, about to read the payload (R117). -/
def extractUnpacking (s : State) (len : Len) : State :=
  { take Config.opExtract s with phase := .readPayload, leff := len, hdrLen := len, ci := 32 }

theorem HeaderRead.unique {len len' : Len} {m : Memory} (h : HeaderRead len m) (h' : HeaderRead len' m) :
    len = len' :=
  BitVec.eq_of_getLsbD_eq fun i hi => (h i hi).trans (h' i hi).symm

/-- The header phase of EXTRACT, from the state that taking it leaves. -/
theorem run_startExtract {s : State} {len : Len} (hu : Unattended s) (hc : 32 ≤ 3 * s.width.toNat * s.height.toNat)
    (hlen : HeaderRead len s.mem) : run 33 (startExtract s) = .next (extractUnpacking s len) := by
  have hcap : 32 ≤ (take Config.opExtract s).capBits.toNat := hc.trans_eq (take_takenAs _ s).capBits.symm
  rw [startExtract, unlessUndersized_big hcap]
  obtain ⟨t, hrun, hci, hread, ht⟩ := run_headerRead (s := { take Config.opExtract s with phase := .readHeader })
    (unattended_congr hu rfl) rfl hcap rfl rfl
  rw [show t.ci = 32 from BitVec.eq_of_toNat_eq hci, HeaderRead.unique hread hlen] at ht
  exact hrun.trans (congrArg _ ht)

/-- The payload phase of EXTRACT. -/
theorem run_extractUnpacking {s : State} (hu : Unattended s) (hready : s.sinkReady = true)
    (hc : 32 ≤ 3 * s.width.toNat * s.height.toNat) (len : Len) :
    ∃ p a, run (payloadBits s len + 1) (extractUnpacking s len) = .next (extractDone s len p a) := by
  have hbits := (take_takenAs Config.opExtract s).capBits
  obtain ⟨t, hrun, hci, hcount, hsink, ht⟩ := run_unpackPhase (M := payloadBits s len) (s := extractUnpacking s len)
    (unattended_congr hu rfl) ⟨rfl, hready, rfl, rfl, rfl, rfl⟩ (hc.trans_eq hbits.symm)
    (congrArg (fun c => min (8 * len.toNat) (c - 32)) hbits.symm)
  rw [(BitVec.toNat_eq_nat.1 hci).2, (BitVec.toNat_eq_nat.1 hcount).2, hsink,
    show (extractUnpacking s len).capBits.toNat = _ from hbits] at ht
  exact ⟨t.bitpos, t.acc, hrun.trans (congrArg _ ht)⟩

theorem run_extract {s : State} {len : Len} {rest : List HostOp} (hport : s.port = issue .extract :: rest)
    (hu : Unattended { s with port := rest }) (hphase : s.phase = .idle ∨ s.phase = .done)
    (hready : s.sinkReady = true) (hc : 32 ≤ 3 * s.width.toNat * s.height.toNat) (hlen : HeaderRead len s.mem) :
    ∃ p a, run (payloadBits s len + 35) s = .next (extractDone { s with port := rest } len p a) := by
  have htake : step s = .next (startExtract { s with port := rest }) :=
    step_take hport (decode_encode .extract) rfl hphase
  have hheader : run 33 (startExtract { s with port := rest }) = .next (extractUnpacking { s with port := rest } len) :=
    run_startExtract hu hc hlen
  obtain ⟨p, a, hpayload⟩ := run_extractUnpacking hu hready hc len
  refine ⟨p, a, ?_⟩
  rw [run_succ htake, show payloadBits s len + 34 = 33 + (payloadBits s len + 1) by omega, run_add hheader]
  exact hpayload

/-! EMBED, WAIT, EXTRACT, WAIT (R115, 45_extract.md R118). -/

/-- EXTRACT and its wait, in the memory that an EMBED of `len` and `bytes` left: the sink gets the whole bytes that the
carriers hold. -/
theorem run_extract_embedded {s : State} {len : Len} {bytes : List Byte} {m : Memory}
    (hport : s.port = assemble [.run .extract]) (hphase : s.phase = .idle ∨ s.phase = .done)
    (hready : s.sinkReady = true) (hc : 32 ≤ 3 * s.width.toNat * s.height.toNat)
    (hwritten : EmbedWritten len bytes (payloadBits s len) m s.mem) (hlen : payloadBits s len / 8 ≤ bytes.length) :
    ∃ t, run (payloadBits s len + 36) s = .next t ∧ t.phase = .done ∧
      t.result = (if 8 * len.toNat ≤ 3 * s.width.toNat * s.height.toNat - 32 then .ok else .incompleteExtraction) ∧
      t.hdrLen = len ∧ t.count.toNat = payloadBits s len / 8 ∧ t.ci.toNat = 32 + payloadBits s len ∧
      t.sink = s.sink ++ bytes.take (payloadBits s len / 8) := by
  obtain ⟨p, a, hrun⟩ := run_extract hport (.inr ⟨_, rfl⟩) hphase hready hc hwritten.headerRead
  refine ⟨_, run_append_wait hrun rfl rfl, rfl, rfl, rfl, toNat_unpackDone_count { s with plen := len } p a,
    toNat_unpackDone_ci (s := { s with plen := len }) hc p a, ?_⟩
  exact congrArg (s.sink ++ ·) (hwritten.carriedBytes_eq_take (Nat.mul_div_le _ 8) hlen)

/-- Settles O48: the header and the bytes that EXTRACT finds are those that EMBED wrote. -/
theorem embedExtractRoundTrip : Obligations.EmbedExtractRoundTrip := by
  intro s hport hphase hm hready hfits hlen
  have hbits := packedBits_of_fits hfits
  have hbytes : packedBits s / 8 = s.plen.toNat := by omega
  obtain ⟨p, a, m, hrun, hwritten⟩ := run_embed hport (.inr ⟨_, rfl⟩) hphase hm (by omega) (by omega) (by omega)
  have hembedded := run_append_wait hrun rfl rfl
  obtain ⟨t, hextract, hdone, hresult, hhdr, hcount, -, hsink⟩ := run_extract_embedded
    (s := { embedDone s s.plen 0 p a m with port := assemble [.run .extract] }) rfl (.inr rfl) hready
    (le_of_add_le_left hfits) hwritten (hbytes.trans_le hlen)
  rw [← hbits]
  refine ⟨t, (run_add hembedded _).trans hextract, hdone, hresult.trans (if_pos (Nat.le_sub_of_add_le' hfits)), hhdr,
    BitVec.eq_of_toNat_eq (hcount.trans hbytes), ?_⟩
  rw [← hbytes]
  exact hsink

/-! EMBED with the question answered yes: the length is clamped to CAP_BYTES (R110), whose bits do not fit after the
header (R114). -/

/-- The length of an accepted truncation: CAP_BYTES (R110). -/
def clampedLength (s : State) : Len := (capBytesOf (capBitsOf s.width s.height)).setWidth 32

theorem toNat_clampedLength {s : State} (h : 3 * s.width.toNat * s.height.toNat / 8 < s.plen.toNat) :
    (clampedLength s).toNat = 3 * s.width.toNat * s.height.toNat / 8 := by
  have hbytes := (take_takenAs Config.opEmbed s).capBytes
  exact (toNat_capBytes_setWidth (hbytes.trans_lt h)).trans hbytes

/-- CAP_BYTES counts the header's four bytes too, so an accepted truncation uses every carrier. -/
theorem payloadBits_clampedLength {s : State} (hc : 32 ≤ 3 * s.width.toNat * s.height.toNat)
    (h : 3 * s.width.toNat * s.height.toNat / 8 < s.plen.toNat) :
    payloadBits s (clampedLength s) = 3 * s.width.toNat * s.height.toNat - 32 := by
  rw [payloadBits_eq, toNat_clampedLength h]
  omega

/-- EMBED with a question, from the state that taking it leaves (R105, R106). -/
theorem run_startEmbed_over {s : State} (hu : Unattended s) (hc : 32 ≤ 3 * s.width.toNat * s.height.toNat)
    (hover : 3 * s.width.toNat * s.height.toNat / 8 < s.plen.toNat) :
    run 2 (startEmbed s) = .next (embedAsked s) := by
  have hawait := (step_of_phase (s := embedAwaiting s) (p := .awaitPayloadSize) (unattended_congr hu rfl) rfl
    (by decide)).trans (blockStep_embedAwaiting_over hover)
  rw [run_succ (step_startEmbed hu hc), run_succ hawait, run_zero]

/-- EMBED, WAIT, CONFIRM yes, and the phases that work on carriers. -/
theorem run_embed_accepted {s : State} {rest : List HostOp}
    (hport : s.port = issue .embed :: .wait :: issue .confirmYes :: rest) (hu : Unattended { s with port := rest })
    (hphase : s.phase = .idle ∨ s.phase = .done) (hm : Memory.wf s.mem)
    (hc : 32 ≤ 3 * s.width.toNat * s.height.toNat) (hover : 3 * s.width.toNat * s.height.toNat / 8 < s.plen.toNat)
    (hb : (payloadBits s (clampedLength s) + 7) / 8 ≤ s.src.length) :
    ∃ p a m, run (payloadBits s (clampedLength s) + 39) s =
        .next (embedDone { s with port := rest } (clampedLength s) (embedAsked s).overage p a m) ∧
      EmbedWritten (clampedLength s) s.src (payloadBits s (clampedLength s)) s.mem m := by
  have htake : step s = .next (startEmbed { s with port := .wait :: issue .confirmYes :: rest }) :=
    step_take hport (decode_encode .embed) rfl hphase
  have hask : run 2 (startEmbed { s with port := .wait :: issue .confirmYes :: rest }) =
      .next (embedAsked { s with port := .wait :: issue .confirmYes :: rest }) :=
    run_startEmbed_over (.inr ⟨_, rfl⟩) hc hover
  have hwait : step (embedAsked { s with port := .wait :: issue .confirmYes :: rest }) =
      .next (embedAsked { s with port := issue .confirmYes :: rest }) :=
    step_wait_over rfl rfl
  have hanswer : step (embedAsked { s with port := issue .confirmYes :: rest }) =
      .next (embedWriting { s with port := rest } (clampedLength s) (embedAsked s).overage) :=
    (step_write rfl).trans ((writeCmd_ok (decode_encode .confirmYes) _).trans (exec_confirmYes_asked rfl))
  rw [run_succ htake, show payloadBits s (clampedLength s) + 38 = 2 + (payloadBits s (clampedLength s) + 34 + 1 + 1)
    by omega, run_add hask, run_succ hwait, run_succ hanswer]
  exact run_embedCarriers hu hm hc hb

/-- Settles O49: the clamped length is CAP_BYTES and its header is what EXTRACT trusts, but the carriers after the
header hold four bytes fewer. -/
theorem acceptedTruncationLosesFourBytes : Obligations.AcceptedTruncationLosesFourBytes := by
  intro s C hport hphase hm hready hC hc hover hb
  subst hC
  have hbits := payloadBits_clampedLength hc hover
  have hlen := toNat_clampedLength hover
  have hbytes : payloadBits s (clampedLength s) / 8 = 3 * s.width.toNat * s.height.toNat / 8 - 4 := by omega
  obtain ⟨p, a, m, hrun, hwritten⟩ := run_embed_accepted hport (.inr ⟨_, rfl⟩) hphase hm hc hover (by omega)
  have hembedded := run_append_wait hrun rfl rfl
  obtain ⟨u, hextract, hdone, hresult, hhdr, hcount, hci, hsink⟩ := run_extract_embedded
    (s := { embedDone s (clampedLength s) (embedAsked s).overage p a m with port := assemble [.run .extract] }) rfl
    (.inr rfl) hready hc hwritten (hbytes.trans_le (by omega))
  have hend : 32 + payloadBits s (clampedLength s) = 3 * s.width.toNat * s.height.toNat := by omega
  have htooLong : ¬ 8 * (clampedLength s).toNat ≤ 3 * s.width.toNat * s.height.toNat - 32 := by omega
  rw [← hbits, ← hbytes]
  exact ⟨_, u, hembedded, rfl, rfl, rfl, hlen, hlen,
    (toNat_packDone_ci (s := { s with plen := clampedLength s }) hc p a m).trans hend, toNat_embedAsked_overage s, rfl,
    hextract, hdone, hresult.trans (if_neg htooLong), (congrArg _ hhdr).trans hlen, hcount, hci.trans hend, hsink⟩

end Sys2Proof.Machine

namespace Sys2Proof.Machine

/-! ## What EXTRACT reports and what it gives to the sink (45_extract.md R118) -/

/-- OK exactly where the header and the payload it announces both fit in the carriers (R117, R118). -/
theorem extractDone_result {s : State} (hc : 32 ≤ 3 * s.width.toNat * s.height.toNat) (len : Len) (p : BitVec 3)
    (a : Byte) : (extractDone s len p a).result =
      if 32 + 8 * len.toNat ≤ 3 * s.width.toNat * s.height.toNat then .ok else .incompleteExtraction :=
  if_congr (Nat.le_sub_iff_add_le' hc) rfl rfl

/-- Settles O47: EXTRACT ends in `extractDone`, which trusts the header and gives the sink the whole bytes that the
carriers after it hold. -/
theorem extractOperation : Obligations.ExtractOperation := by
  intro s L M hport hphase hready hc hheader hM
  subst hM
  obtain ⟨p, a, hrun⟩ := run_extract hport (.inl rfl) hphase hready hc hheader
  have hresult := extractDone_result (s := { s with port := [] }) hc L p a
  have hci := toNat_unpackDone_ci (s := { s with port := [], plen := L }) hc p a
  have hcount := toNat_unpackDone_count { s with port := [], plen := L } p a
  refine ⟨_, carriedBytes s.mem 0 (payloadBits s L / 8), hrun, rfl, rfl, hresult, rfl, rfl, hci,
    hcount.trans (packedBits_div_eight { s with plen := L }), rfl, (length_carriedBytes ..).trans hcount.symm,
    fun j b hj hb => ?_, rfl, rfl, ⟨rfl, rfl, rfl⟩⟩
  rw [length_carriedBytes] at hj
  exact getLsbD_getD_carriedBytes s.mem hj hb

end Sys2Proof.Machine

namespace Sys2Proof.Machine

/-! ## Results and errors (60_exceptions.md R121 to R124) -/

theorem phaseInv_done {s : State} (hp : s.phase = .done) : PhaseInv s ↔ Ended s := by simp only [PhaseInv, hp]

/-- Until an operation ends, RESULT stays OK: in IDLE from reset on, otherwise because an operation runs (R25). -/
theorem Inv.result_eq_ok {s : State} (hi : Inv s) (hp : s.phase ≠ .done) : s.result = .ok := by
  by_cases hidle : s.phase = .idle
  · have hpi := hi.phase_inv
    simp only [PhaseInv, hidle] at hpi
    obtain ⟨-, hr, -⟩ := hpi
    exact hr
  · exact (hi.running rfl ⟨hidle, hp⟩).2

/-- Another result than OK is that of an operation that has ended. -/
theorem Inv.ended_of_error {s : State} {r : Result} (hi : Inv s) (hr : s.result = r) (hok : r ≠ .ok) :
    s.phase = .done ∧ Ended s := by
  have hp : s.phase = .done := by
    by_contra hp
    exact hok (hr.symm.trans (hi.result_eq_ok hp))
  exact ⟨hp, (phaseInv_done hp).1 hi.phase_inv⟩

/-- The six commands that use carriers, grouped as R122 groups them: by the results they share. -/
theorem UsesCarriers.grouped {op : BitVec 4} (h : UsesCarriers op) :
    (op = Config.opHdrenc ∨ op = Config.opHdrdec ∨ op = Config.opPack) ∨
      (op = Config.opUnpack ∨ op = Config.opExtract) ∨ op = Config.opEmbed := by
  unfold UsesCarriers at h
  tauto

/-- Only CAP and the commands that use carriers end with OK. -/
theorem EndedOk.cap_or_usesCarriers {s : State} (h : EndedOk s) : s.op = Config.opCap ∨ UsesCarriers s.op := by
  unfold UsesCarriers
  obtain ⟨hop, -⟩ | ⟨hop, -⟩ | ⟨hop, -⟩ | ⟨hop, -⟩ | ⟨hop, -⟩ := h <;> tauto

/-- Settles O32: a result other than OK is that of an ended operation, and for each result the invariant says which
commands it can stand for. -/
theorem resultsOfEachCommand : Obligations.ResultsOfEachCommand := by
  intro s hs
  have hi := hs.inv
  have hended {r : Result} (hok : r ≠ .ok) (hr : s.result = r) : Ended s := (hi.ended_of_error hr hok).2
  refine ⟨hi.result_eq_ok, fun hr => ?_, fun hr => ?_, fun hr => ?_, fun hp hlegal => ?_⟩
  · simpa only [Ended, hr] using hended (by decide) hr
  · simpa only [Ended, hr] using hended (by decide) hr
  · simpa only [Ended, hr] using hended (by decide) hr
  have he := (phaseInv_done hp).1 hi.phase_inv
  cases hr : s.result <;> simp only [Ended, hr] at he
  case illegalCommand => exact absurd hr hlegal
  case ok =>
    obtain hop | hop := EndedOk.cap_or_usesCarriers he
    · exact .inl ⟨hop, rfl⟩
    obtain hop | hop | hop := hop.grouped
    · exact .inr (.inl ⟨hop, .inl rfl⟩)
    · exact .inr (.inr (.inl ⟨hop, .inl rfl⟩))
    · exact .inr (.inr (.inr ⟨hop, .inl rfl⟩))
  case undersizedCarrier =>
    obtain ⟨hop, -⟩ := he
    obtain hop | hop | hop := UsesCarriers.grouped hop
    · exact .inr (.inl ⟨hop, .inr rfl⟩)
    · exact .inr (.inr (.inl ⟨hop, .inr (.inr rfl)⟩))
    · exact .inr (.inr (.inr ⟨hop, .inr (.inr rfl)⟩))
  case incompleteExtraction =>
    obtain ⟨hop, -⟩ := he
    exact .inr (.inr (.inl ⟨hop, .inr (.inl rfl)⟩))
  case capacityExceededDeclined =>
    obtain ⟨hop, -⟩ := he
    exact .inr (.inr (.inr ⟨hop, .inr (.inl rfl)⟩))

/-- Settles O33: each error is that of an ended operation, and the invariant keeps what the operation left. -/
theorem registersAfterAnError : Obligations.RegistersAfterAnError := by
  intro s hs
  have hi := hs.inv
  refine ⟨fun hr => ?_, fun hr => ?_, fun hr => ?_⟩ <;>
    obtain ⟨hp, he⟩ := hi.ended_of_error hr (by decide) <;> simp only [Ended, hr] at he
  · obtain ⟨-, -, hcount, hleff, hci, -, hover⟩ := he
    exact ⟨hp, hcount, hleff, hci, hover⟩
  · obtain ⟨-, -, hci, hcount, hlen, hhdr⟩ := he
    exact ⟨hp, hci, hcount, by omega, hhdr⟩
  · obtain ⟨-, hcap, hclear⟩ := he
    have hbytes : s.capBytes.toNat < 4 := by rw [hi.cap_bytes]; omega
    exact ⟨hp, hcap, hbytes, hclear.count, hclear.ci, hclear.leff, hclear.hdrLen, hclear.overage⟩

end Sys2Proof.Machine

namespace Sys2Proof.Machine

/-! ## Reset (70_reset_and_hazards.md R137 to R139) -/

/-- After reset every field of STATUS is 0. -/
@[simp] theorem statusWord_resetBlock (s : State) : statusWord (resetBlock s) = 0 := by
  apply BitVec.eq_of_toNat_eq
  simp [statusWord_toNat, confirmReq, busy, Result.code, Phase.code]

/-- Whichever register the number names, and where it names none, the value is 0: every branch of the read map is. -/
@[simp] theorem readReg_resetBlock (n : RegNum) (s : State) : readReg n (resetBlock s) = 0 := by
  simp [readReg]

theorem resetBlock_sameOutside (s : State) : SameOutside s (resetBlock s) :=
  ⟨rfl, rfl, rfl, rfl, rfl, rfl⟩

theorem reset_eq_resetBlock : State.reset = resetBlock State.reset := rfl

/-- Settles O25: the step answers `resetBlock`, whose block fields are those of `State.reset`. -/
theorem resetClearsTheBlockAlone : Obligations.ResetClearsTheBlockAlone := by
  intro s rest hport
  exact ⟨resetBlock { s with port := rest }, step_serve hport, rfl, rfl, rfl, rfl, rfl, rfl, rfl, rfl, rfl, rfl, rfl,
    rfl, rfl, rfl, rfl, rfl, statusWord_resetBlock _, fun n => readReg_resetBlock n _, resetBlock_sameOutside _⟩

/-- Settles O26: the reset state is the reset of itself, beside an empty carrier memory. -/
theorem resetStateMeetsTheInvariant : Obligations.ResetStateMeetsTheInvariant :=
  ⟨inv_resetBlock (s := State.reset) Memory.wf_nil, ⟨Memory.wf_nil, reset_eq_resetBlock⟩,
    fun n => readReg_resetBlock n State.reset⟩

/-! ## The host's own carrier accesses (70_reset_and_hazards.md R141, R145; 20_memory.md R39, R50) -/

theorem step_putCarrier {s : State} {ci : CarrierWord} {v : Byte} {rest : List HostOp}
    (h : s.port = .putCarrier ci v :: rest) (hb : busy s = false) :
    step s = .next { s with port := rest, mem := Memory.write s.mem ci.toNat v } := by
  rw [step_serve h]
  simp [serve, hb]

theorem step_getCarrier {s : State} {ci : CarrierWord} {rest : List HostOp}
    (h : s.port = .getCarrier ci :: rest) (hb : busy s = false) :
    step s = .next { s with port := rest, seen := s.seen ++ [.carrier ci (Memory.read s.mem ci.toNat)] } := by
  rw [step_serve h]
  simp [serve, hb]

/-- While the block owns carrier memory either access is refused. -/
theorem step_hostTouchesCarriers_busy {s : State} (h : hostTouchesCarriers s = true) (hb : busy s = true) :
    step s = .refused .hostCarrierAccessWhileBusy := by
  unfold hostTouchesCarriers at h
  split at h
  next hport => rw [step_serve hport]; simp [serve, hb]
  next hport => rw [step_serve hport]; simp [serve, hb]
  next => cases h

/-- Settles O54: the two accesses when not busy, by the laws of carrier memory, and their refusal when busy. -/
theorem hostCarrierAccess : Obligations.HostCarrierAccess := by
  refine ⟨fun s ci v rest hport => ⟨fun hb hm => ?_, fun hb => ?_⟩,
    fun s ci rest hport => ⟨fun hb => ?_, fun hb => ?_⟩⟩
  · exact ⟨_, step_putCarrier hport hb, Memory.wf_write hm, fun a => Memory.read_write hm ci.toNat a v, rfl⟩
  · exact step_hostTouchesCarriers_busy (by simp [hostTouchesCarriers, hport]) hb
  · exact step_getCarrier hport hb
  · exact step_hostTouchesCarriers_busy (by simp [hostTouchesCarriers, hport]) hb

end Sys2Proof.Machine
